-- ==== Sys2Proof/Word.lean ====
section
/-!
DEFINITION. The word types of the block: a register or an output word, a colour sample, a byte, a pixel value.
-/

namespace Sys2Proof

/-- A register, a command word or an output word (10_state.md R22, 30_encoding.md R71, 20_memory.md R56). -/
abbrev Word := BitVec 32

/-- A packed colour sample (10_state.md R37). -/
abbrev Half := BitVec 16

/-- A byte of VRAM, or one half of a sample. -/
abbrev Byte := BitVec 8

/-- A pixel value, one cell of the index frame buffer (10_state.md R36). -/
abbrev Pixel := BitVec 2

/-- `zext_32(v) << lo`: a field placed in a word with its bit 0 at bit `lo`. -/
def place {w : Nat} (lo : Nat) (v : BitVec w) : Word := v.setWidth 32 <<< lo

end Sys2Proof
end

