-- ==== Sys2Proof/Syntax.lean ====
section
/-!
DEFINITION. The nine commands of TBU-CMD v1 (30_encoding.md R74), one constructor per row of the opcode table. The
operand fields have the widths of R72, so every term is a command that has an encoding.
-/

namespace Sys2Proof

/-- A command with its operand fields, in the operand order of 30_encoding.md R79. -/
inductive Instr where
  /-- NOP (45_sequencing.md R180). -/
  | nop
  /-- CLEAR (41_tile_compositor_with_scroll.md R127). -/
  | clear
  /-- COMPOSE (41_tile_compositor_with_scroll.md R123). -/
  | compose
  /-- CONVERT (43_nearest_neighbor_resampler.md R153). -/
  | convert
  /-- FRAME (45_sequencing.md R181). -/
  | frame
  /-- UNPACK idx, row, col (40_tile_bitmap_unpacker.md R105). -/
  | unpack (idx : BitVec 8) (row : BitVec 3) (col : BitVec 3)
  /-- LUT pix (42_color_palette_lut.md R142). -/
  | lut (pix : BitVec 2)
  /-- RESAMPLE xo, yo (43_nearest_neighbor_resampler.md R155). -/
  | resample (xo : BitVec 12) (yo : BitVec 12)
  /-- EXPAND sample (44_bit_expand_rgb.md R174). -/
  | expand (sample : BitVec 16)
  deriving DecidableEq, Repr

end Sys2Proof
end

