-- ==== Sys2Proof/WellFormed.lean ====
section
/-!
DEFINITION. Well-formed command lines (30_encoding.md R79): operands are plain numbers and each must fit its field; an
operand that does not fit is an assembly error. An `Instr` itself carries its field widths in its type, so there is
nothing further to check of it.
-/

namespace Sys2Proof

/-- A command line as a host program writes it, its operands plain numbers (30_encoding.md R79). -/
inductive CommandLine where
  | nop
  | clear
  | compose
  | convert
  | frame
  | unpack (idx row col : Nat)
  | lut (pix : Nat)
  | resample (xo yo : Nat)
  | expand (sample : Nat)
  deriving DecidableEq, Repr

/-- Each operand fits its field (30_encoding.md R79, the widths of R72). -/
def CommandLine.wellFormed : CommandLine → Bool
  | .nop => true
  | .clear => true
  | .compose => true
  | .convert => true
  | .frame => true
  | .unpack idx row col => decide (idx < 2 ^ 8) && decide (row < 2 ^ 3) && decide (col < 2 ^ 3)
  | .lut pix => decide (pix < 2 ^ 2)
  | .resample xo yo => decide (xo < 2 ^ 12) && decide (yo < 2 ^ 12)
  | .expand sample => decide (sample < 2 ^ 16)

/-- The command a line names, its operands taken into their fields. It stands for the line only when the line is
well formed. -/
def CommandLine.toInstr : CommandLine → Instr
  | .nop => .nop
  | .clear => .clear
  | .compose => .compose
  | .convert => .convert
  | .frame => .frame
  | .unpack idx row col => .unpack (BitVec.ofNat 8 idx) (BitVec.ofNat 3 row) (BitVec.ofNat 3 col)
  | .lut pix => .lut (BitVec.ofNat 2 pix)
  | .resample xo yo => .resample (BitVec.ofNat 12 xo) (BitVec.ofNat 12 yo)
  | .expand sample => .expand (BitVec.ofNat 16 sample)

end Sys2Proof
end

