-- ==== Sys2Proof/Decode.lean ====
section
/-!
DEFINITION. Decoding a command word (30_encoding.md R71 to R78), the encoder written from the same formats, and the
assembler's arithmetic (R79).
-/

namespace Sys2Proof

/-- The verdict on a command word: one of the nine commands, or illegal with the reserved opcode it carries
(30_encoding.md R75, R78). -/
inductive Verdict where
  | command (i : Instr)
  | illegal (opcode : BitVec 8)
  deriving DecidableEq, Repr

/-- `OP = w[31:24]` (30_encoding.md R72). -/
def opcodeOf (w : Word) : BitVec 8 := w.extractLsb' 24 8

/-- `IDX = w[7:0]` (30_encoding.md R73). -/
def idxOf (w : Word) : BitVec 8 := w.extractLsb' 0 8

/-- `ROW = w[10:8]` (30_encoding.md R73). -/
def rowOf (w : Word) : BitVec 3 := w.extractLsb' 8 3

/-- `COL = w[13:11]` (30_encoding.md R73). -/
def colOf (w : Word) : BitVec 3 := w.extractLsb' 11 3

/-- `PIX = w[1:0]` (30_encoding.md R73). -/
def pixOf (w : Word) : BitVec 2 := w.extractLsb' 0 2

/-- `XO = w[11:0]` (30_encoding.md R73). -/
def xoOf (w : Word) : BitVec 12 := w.extractLsb' 0 12

/-- `YO = w[23:12]` (30_encoding.md R73). -/
def yoOf (w : Word) : BitVec 12 := w.extractLsb' 12 12

/-- `SAMPLE = w[15:0]` (30_encoding.md R73). -/
def sampleOf (w : Word) : BitVec 16 := w.extractLsb' 0 16

/-- The decoder: the command is selected by the opcode alone, the fields are read by its format, reserved bits are
ignored, and a reserved opcode is illegal by name (30_encoding.md R74 to R76, R78). -/
def decode (w : Word) : Verdict :=
  let op := opcodeOf w
  if op = 0x00#8 then .command .nop
  else if op = 0x01#8 then .command .clear
  else if op = 0x02#8 then .command .compose
  else if op = 0x03#8 then .command .convert
  else if op = 0x04#8 then .command .frame
  else if op = 0x10#8 then .command (.unpack (idxOf w) (rowOf w) (colOf w))
  else if op = 0x11#8 then .command (.lut (pixOf w))
  else if op = 0x12#8 then .command (.resample (xoOf w) (yoOf w))
  else if op = 0x13#8 then .command (.expand (sampleOf w))
  else .illegal op

/-- The opcode of a command (30_encoding.md R74). -/
def Instr.opcode : Instr → BitVec 8
  | .nop => 0x00#8
  | .clear => 0x01#8
  | .compose => 0x02#8
  | .convert => 0x03#8
  | .frame => 0x04#8
  | .unpack _ _ _ => 0x10#8
  | .lut _ => 0x11#8
  | .resample _ _ => 0x12#8
  | .expand _ => 0x13#8

/-- The encoder: the fields of formats Z, U, L, S and E at their places, reserved bits 0 (30_encoding.md R72). -/
def encode (i : Instr) : Word :=
  match i with
  | .nop => place 24 i.opcode
  | .clear => place 24 i.opcode
  | .compose => place 24 i.opcode
  | .convert => place 24 i.opcode
  | .frame => place 24 i.opcode
  | .unpack idx row col => place 24 i.opcode ||| place 11 col ||| place 8 row ||| place 0 idx
  | .lut pix => place 24 i.opcode ||| place 0 pix
  | .resample xo yo => place 24 i.opcode ||| place 12 yo ||| place 0 xo
  | .expand sample => place 24 i.opcode ||| place 0 sample

/-- The reserved bits of a command's format, as a mask (30_encoding.md R72, R76). -/
def Instr.reservedMask : Instr → Word
  | .nop => 0x00FFFFFF#32
  | .clear => 0x00FFFFFF#32
  | .compose => 0x00FFFFFF#32
  | .convert => 0x00FFFFFF#32
  | .frame => 0x00FFFFFF#32
  | .unpack _ _ _ => 0x00FFC000#32
  | .lut _ => 0x00FFFFFC#32
  | .resample _ _ => 0x00000000#32
  | .expand _ => 0x00FF0000#32

/-- The word the assembler makes of a command line, by the sums of 30_encoding.md R79; none is an assembly error. -/
def CommandLine.assemble (l : CommandLine) : Option Word :=
  if l.wellFormed then
    some (BitVec.ofNat 32 (match l with
      | .nop => 0x00000000
      | .clear => 0x01000000
      | .compose => 0x02000000
      | .convert => 0x03000000
      | .frame => 0x04000000
      | .unpack idx row col => 0x10000000 + (col <<< 11) + (row <<< 8) + idx
      | .lut pix => 0x11000000 + pix
      | .resample xo yo => 0x12000000 + (yo <<< 12) + xo
      | .expand sample => 0x13000000 + sample))
  else none

/-- The command word whose `nbits` low bits are `w` and whose higher bits are 0: a command is one 32-bit word
(30_encoding.md R71), and the opcode table numbers its bits as R72 does. -/
def tableWord (nbits w : Nat) : Word := BitVec.ofNat 32 (w % 2 ^ nbits)

/-- The command the decoder reads from an opcode-table word; none where the word is illegal. -/
def decodeTableWord (nbits w : Nat) : Option Instr :=
  match decode (tableWord nbits w) with
  | .command i => some i
  | .illegal _ => none

end Sys2Proof
end

