-- ==== Sys2Proof/Config.lean ====
section
/-!
DEFINITION. What a build of the block fixes (00_scope.md R1 to R8, 20_memory.md R50), the defaults of R10, and the
free values the spec leaves open (93_implementation_defined.md U1, U3, U7).
-/

namespace Sys2Proof

/-- The channel order of an output word, `OUT_PACK` (00_scope.md R8). -/
inductive OutPack where
  | rgba8888
  | argb8888
  | abgr8888
  | bgra8888
  deriving DecidableEq, Repr

/-- `PALETTE[0..3]`: exactly four colour words (00_scope.md R5, 10_state.md R34). -/
structure Palette where
  entry0 : Word
  entry1 : Word
  entry2 : Word
  entry3 : Word
  deriving DecidableEq, Repr

/-- The parameters of one build. `W` and `H` are also the converter's `Wl` and `Hl` (00_scope.md R2). -/
structure Config where
  /-- `W`, viewport width (R1). -/
  w : Nat
  /-- `H`, viewport height (R1). -/
  h : Nat
  /-- `Wo`, output width (R3). -/
  wo : Nat
  /-- `Ho`, output height (R3). -/
  ho : Nat
  /-- `VRAM_SIZE` in bytes (R4). -/
  vramSize : Nat
  /-- `UBASE`, tile base of unsigned mode (R4). -/
  ubase : Nat
  /-- `SBASE`, tile base of signed mode (R4). -/
  sbase : Nat
  /-- `MAP0`, index map of `MSEL = 0` (R4). -/
  map0 : Nat
  /-- `MAP1`, index map of `MSEL = 1` (R4). -/
  map1 : Nat
  /-- `PALETTE` (R5). -/
  palette : Palette
  /-- `OUT_BASE`, external byte address of OUT (R6). -/
  outBase : Nat
  /-- `OUT_STRIDE`, words in one row of OUT (R6). -/
  outStride : Nat
  /-- `OUT_ROWS`, rows of OUT (R6). -/
  outRows : Nat
  /-- `ROW_FLIP`, 0 or 1 by its type (R7). -/
  rowFlip : Bool
  /-- `ROW_OFFSET` (R7). -/
  rowOffset : Nat
  /-- `OUT_PACK` (R8). -/
  outPack : OutPack
  /-- `BLOCK_BASE`, host byte address of the window (20_memory.md R50). -/
  blockBase : Nat
  deriving DecidableEq, Repr

/-- `CFG_DEFAULT` (00_scope.md R10, the defaults of R1 to R8; log 3). The spec gives no default for `OUT_BASE` and
`BLOCK_BASE`: DESIGN CHOICE 0 for both, unsafe (log 2). -/
def Config.default : Config where
  w := 160
  h := 144
  wo := 240
  ho := 216
  vramSize := 0x2000
  ubase := 0x0000
  sbase := 0x1000
  map0 := 0x1800
  map1 := 0x1C00
  palette := ⟨0xFFFFFFFF, 0xAAAAAAAA, 0x55555555, 0x00000000⟩
  outBase := 0
  outStride := 240
  outRows := 216
  rowFlip := false
  rowOffset := 0
  outPack := .rgba8888
  blockBase := 0

/-- The free draws: draw number `k` of width `w`. It has no body, so a claim holds whatever the draws are
(93_implementation_defined.md U1, U3, U7; DESIGN CHOICE in form, safe, log 4). -/
opaque Config.freeValue (w : Nat) (k : Nat) : BitVec w

/-- What the external byte at an address held before anything wrote it: one unknown value for each address, since reset
does not touch OUT, which holds what it held (10_state.md R38, R40), and a repeated read of it returns the same value
(20_memory.md R61). It has no body (DESIGN CHOICE in form, safe, log 30). -/
opaque Config.outAtPowerUp (addr : Nat) : BitVec 8

end Sys2Proof
end

