-- ==== Sys2Proof/Machine/State.lean ====
section
/-!
DEFINITION. The state of the block as plain data (10_state.md), the turns of the agents outside it
(70_reset_and_hazards.md R236), the reasons a step can stop, and the state after power-up and reset.
-/

namespace Sys2Proof.Machine

/-- A memory of `w`-bit cells: the cells that have been written, by address. A cell that is not listed holds no value
the spec gives: in VRAM, the CSB and the IFB each read of it is a free draw (10_state.md R40, log 5), and in OUT it holds
one unknown value (log 30). With `w = 8` it is a list of `Host.Cell`. -/
abbrev Memory (w : Nat) := List (Nat × BitVec w)

/-- The canonical form: addresses strictly rising. No entry is known to equal what an unlisted cell reads as, for that
is no value, or in OUT an unknown one (log 18). -/
abbrev Memory.wf {w : Nat} (m : Memory w) : Prop := (m.map Prod.fst).Pairwise (· < ·)

/-- The sequencer (10_state.md R32). `running` holds the accepted command word, as 30_encoding.md R70 writes it. -/
inductive Seq where
  | idle
  | running (word : Word)
  deriving DecidableEq, Repr

/-- The width of a host access (20_memory.md R57, R58). -/
inductive Width where
  | w8
  | w16
  | w32
  deriving DecidableEq, Repr

/-- One turn of the world outside the block (70_reset_and_hazards.md R236). Addresses are byte addresses: of the host
for `read` and `write` (20_memory.md R50), of external memory for `outRead` and `outWrite` (20_memory.md R56). -/
inductive Turn where
  /-- A host read of the window. -/
  | read (addr : Nat) (width : Width)
  /-- A host write to the window; the low bits of `value`, as many as the width, are written. -/
  | write (addr : Nat) (width : Width) (value : Word)
  /-- A read of one OUT word by the presentation layer or another agent (20_memory.md R64 item 3). -/
  | outRead (addr : Nat)
  /-- A write of one OUT word by an agent outside the block (95_test_vectors.md T4, T7). -/
  | outWrite (addr : Nat) (value : Word)
  /-- The reset input is asserted and released (70_reset_and_hazards.md R220). -/
  | reset
  /-- The outside agents leave this step to the block: a running command is performed and completes
  (70_reset_and_hazards.md R228). -/
  | pass
  deriving DecidableEq, Repr

/-- The state. The fields from `cfg` to `out` are the spec's, one home for each piece; `inbox`, `answer` and `draws` are
the model's own (logs 4, 7, 8). -/
structure State where
  /-- The parameters of this build, changed by no step (00_scope.md R1 to R9; log 1). Its palette is the palette LUT and
  the PAL registers (10_state.md R30, R34). -/
  cfg : Config
  /-- CTRL (10_state.md R23). -/
  ctrl : Word
  /-- SCROLL (10_state.md R25). -/
  scroll : Word
  /-- STATUS.ILL (10_state.md R27). -/
  ill : Bool
  /-- STATUS.OVR (10_state.md R27). -/
  ovr : Bool
  /-- RESULT (10_state.md R29). -/
  result : Word
  /-- L_CTRL (10_state.md R33). -/
  lCtrl : Word
  /-- L_SCROLL (10_state.md R33). -/
  lScroll : Word
  /-- SEQ (10_state.md R32); STATUS.BUSY reads from it. -/
  seq : Seq
  /-- VRAM, by byte address (10_state.md R35). -/
  vram : Memory 8
  /-- CSB, by byte: sample `(x, y)` is bytes `2*(y*W + x)` and the next (20_memory.md R55). -/
  csb : Memory 8
  /-- IFB: cell `(x, y)` is at `y*W + x` (10_state.md R36, 20_memory.md R54). -/
  ifb : Memory 2
  /-- OUT, by external byte address (10_state.md R38, 20_memory.md R56). -/
  out : Memory 8
  /-- The turns still to come, oldest first (model's own, log 7). -/
  inbox : List Turn
  /-- What the latest host or OUT read returned (model's own, log 8). -/
  answer : Option Word
  /-- How many free draws have been used (model's own, log 4). -/
  draws : Nat
  deriving DecidableEq, Repr

/-- Why the machine stops with a fault: a race the host's duty forbids (70_reset_and_hazards.md R229). All are raised by
the access of an outside agent, none by a command, and all are safe: the block goes on with an unspecified result. -/
inductive Fault where
  /-- A host write to a VRAM byte while COMPOSE, FRAME or UNPACK runs (20_memory.md R64 item 1). Raised by a write
  turn. Safe. -/
  | vramRace
  /-- A host write to a CSB byte while CONVERT or FRAME runs in colour mode (20_memory.md R64 item 1). Raised by a
  write turn. Safe. -/
  | csbRace
  /-- An outside write to an OUT word while CONVERT or FRAME runs (DEDUCED from the exclusive ownership of 20_memory.md
  R64, log 12). Raised by an outWrite turn. Safe. -/
  | outRace
  deriving DecidableEq, Repr

/-- Why the model answers no state. -/
inductive Refusal where
  /-- A command with no meaning yet. Raised by no arm of this model. Safe. -/
  | notModelled (mnemonic : String)
  /-- The configuration is not valid; raised by the step before anything else (00_scope.md R9,
  93_implementation_defined.md U8). Safe. -/
  | invalidConfig
  /-- A register access that is not an aligned 32-bit access; raised by a read or write turn (20_memory.md R57,
  93_implementation_defined.md U9). Safe. -/
  | badRegisterAccess
  /-- A misaligned access to a memory window; raised by a read or write turn (20_memory.md R58,
  93_implementation_defined.md U9). Safe. -/
  | misalignedAccess
  /-- A host address outside the block's window, which this block does not answer; raised by a read or write turn
  (20_memory.md R50, log 16). Safe. -/
  | outsideWindow
  /-- An external address that is not an aligned word of OUT; raised by an outRead or outWrite turn (20_memory.md R56,
  log 16). Safe. -/
  | outsideOut
  /-- The sequencer runs a word that is no command: no run reaches it (log 9). Raised by the block's turn. Safe. -/
  | runningIllegal (opcode : BitVec 8)
  deriving DecidableEq, Repr

/-- The machine right after power-up and reset (10_state.md R40, 70_reset_and_hazards.md R220 to R222): registers and
latches 0, SEQ Idle, the default configuration (log 3), no memory cell with a value the spec gives. -/
def State.reset : State where
  cfg := Config.default
  ctrl := 0x00000000
  scroll := 0x00000000
  ill := false
  ovr := false
  result := 0x00000000
  lCtrl := 0x00000000
  lScroll := 0x00000000
  seq := .idle
  vram := []
  csb := []
  ifb := []
  out := []
  inbox := []
  answer := none
  draws := 0

end Sys2Proof.Machine
end

