-- ==== Sys2Proof/Machine/Ops.lean ====
section
/-!
DEFINITION. The named operations over memories and registers: reading, writing and filling a memory, little-endian
composition, validity of the configuration, raising and clearing the error bits, accepting a command word, completing a
command, and the register half of reset.
-/

namespace Sys2Proof.Machine

/-! ## Memories -/

/-- The value a memory holds at an address, none where nothing has been written. -/
def Memory.get {w : Nat} : Memory w → Nat → Option (BitVec w)
  | [], _ => none
  | (a, v) :: rest, b => if a = b then some v else Memory.get rest b

/-- One cell written, in the canonical form. -/
def Memory.set {w : Nat} : Memory w → Nat → BitVec w → Memory w
  | [], b, v => [(b, v)]
  | (a, u) :: rest, b, v =>
    if b < a then (b, v) :: (a, u) :: rest
    else if b = a then (b, v) :: rest
    else (a, u) :: Memory.set rest b v

/-- The cells of `[lo, lo + n)` written by `f`, in one pass; where `f` gives none the cell keeps what it held. -/
def Memory.fill {w : Nat} (m : Memory w) (lo n : Nat) (f : Nat → Option (BitVec w)) : Memory w :=
  m.filter (fun c => decide (c.1 < lo)) ++
    ((List.range' lo n).filterMap fun a =>
      match f a with
      | some v => some (a, v)
      | none => (m.get a).map fun v => (a, v)) ++
    m.filter (fun c => decide (lo + n ≤ c.1))

/-- A read of a cell: its value, or free draw `k` where nothing has been written (10_state.md R40). -/
def Memory.read {w : Nat} (m : Memory w) (a k : Nat) : BitVec w :=
  (m.get a).getD (Config.freeValue w k)

/-- Every listed address lies in `[lo, hi)`. -/
def Memory.within {w : Nat} (m : Memory w) (lo hi : Nat) : Bool :=
  m.all fun c => decide (lo ≤ c.1) && decide (c.1 < hi)

/-! ## Little-endian composition (20_memory.md R52) -/

/-- Byte `i` of a word: `(v >> 8*i) & 0xFF`. -/
def byteAt (v : Word) (i : Nat) : Byte := v.extractLsb' (8 * i) 8

/-- The number of bytes of an access. -/
def Width.bytes : Width → Nat
  | .w8 => 1
  | .w16 => 2
  | .w32 => 4

/-- The value of `width.bytes` bytes, byte 0 lowest, zero-extended to a word. -/
def joinBytes (width : Width) (b : Nat → Byte) : Word :=
  match width with
  | .w8 => place 0 (b 0)
  | .w16 => place 8 (b 1) ||| place 0 (b 0)
  | .w32 => place 24 (b 3) ||| place 16 (b 2) ||| place 8 (b 1) ||| place 0 (b 0)

/-- Four bytes written little-endian from `a`. -/
def Memory.setWord (m : Memory 8) (a : Nat) (v : Word) : Memory 8 :=
  (((m.set a (byteAt v 0)).set (a + 1) (byteAt v 1)).set (a + 2) (byteAt v 2)).set (a + 3) (byteAt v 3)

/-- The byte of OUT at an external address: what was last written there, else what it held at power-up
(10_state.md R38, R40). Reads of it agree for as long as nothing writes it (20_memory.md R61). -/
def Memory.outByte (m : Memory 8) (a : Nat) : Byte := (m.get a).getD (Config.outAtPowerUp a)

/-- The little-endian word of OUT at `a` (20_memory.md R52, R56). -/
def Memory.outWord (m : Memory 8) (a : Nat) : Word := joinBytes .w32 fun i => m.outByte (a + i)

/-! ## The configuration (00_scope.md R9) -/

/-- The bounds of the viewport and of the output. -/
def geometryOk (c : Config) : Bool :=
  decide (1 ≤ c.w) && decide (c.w ≤ 256) && decide (1 ≤ c.h) && decide (c.h ≤ 256) &&
  decide (1 ≤ c.wo) && decide (c.wo ≤ 4096) && decide (1 ≤ c.ho) && decide (c.ho ≤ 4096)

/-- The tile regions and maps lie in VRAM, and VRAM fits its window. -/
def vramOk (c : Config) : Bool :=
  decide (c.ubase + 256 * 16 ≤ c.vramSize) &&
  decide (128 * 16 ≤ c.sbase) && decide (c.sbase + 128 * 16 ≤ c.vramSize) &&
  decide (c.map0 + 1024 ≤ c.vramSize) && decide (c.map1 + 1024 ≤ c.vramSize) &&
  decide (c.vramSize ≤ 0x2000)

/-- The written part of OUT lies in OUT, and OUT is word-aligned. `ROW_FLIP` and `OUT_PACK` are in range by their
types. -/
def outOk (c : Config) : Bool :=
  decide (c.wo ≤ c.outStride) && decide (c.rowOffset + c.ho ≤ c.outRows) && decide (c.outBase % 4 = 0)

/-- A valid configuration: the conditions of 00_scope.md R9, and the multiple of 0x10000 that 20_memory.md R50 asks of
`BLOCK_BASE` (log 22). -/
def validConfig (c : Config) : Bool :=
  geometryOk c && vramOk c && outOk c && decide (c.blockBase % 0x10000 = 0)

/-! ## State updates every meaning shares -/

/-- The next `n` free draws are used. -/
def State.useDraws (s : State) (n : Nat) : State := { s with draws := s.draws + n }

/-- RESULT is written; only probes do so (10_state.md R29). -/
def State.setResult (s : State) (v : Word) : State := { s with result := v }

/-- Completion of a command: SEQ becomes Idle, so BUSY reads 0 (70_reset_and_hazards.md R228). -/
def State.complete (s : State) : State := { s with seq := .idle }

/-! ## Error events: the block's only exceptions, sticky bits and never a trap (60_exceptions.md R200 to R205) -/

/-- The two error events. -/
inductive ErrKind where
  | ill
  | ovr
  deriving DecidableEq, Repr

/-- `raise Err(kind)`: the sticky bit is set and nothing else changes; there is no saved state, no vector and no mode
(60_exceptions.md R201, R202, R205). -/
def State.raiseErr (s : State) : ErrKind → State
  | .ill => { s with ill := true }
  | .ovr => { s with ovr := true }

/-- The clearing of error bits by a host write of `v` to STATUS: bit 8 clears ILL, bit 9 clears OVR, the other bits are
ignored (10_state.md R28). -/
def State.clearErr (s : State) (v : Word) : State :=
  { s with ill := s.ill && !v.getLsbD 8, ovr := s.ovr && !v.getLsbD 9 }

/-! ## Acceptance and reset -/

/-- A host write of a word to CMD, in one indivisible step (30_encoding.md R70): OVR while a command runs, ILL for a
reserved opcode, else CTRL and SCROLL are latched and the word runs. -/
def State.offerCommand (s : State) (word : Word) : State :=
  match s.seq with
  | .running _ => s.raiseErr .ovr
  | .idle =>
    match decode word with
    | .illegal _ => s.raiseErr .ill
    | .command _ => { s with lCtrl := s.ctrl, lScroll := s.scroll, seq := .running word }

/-- What reset does to registers, latches and SEQ; no memory and no parameter changes (70_reset_and_hazards.md R220,
R221, 10_state.md R40). -/
def State.resetRegisters (s : State) : State :=
  { s with ctrl := 0, scroll := 0, ill := false, ovr := false, result := 0, lCtrl := 0, lScroll := 0, seq := .idle }

end Sys2Proof.Machine
end

