-- ==== Sys2Proof/Machine/Operands.lean ====
section
/-!
DEFINITION. What a command takes its operands from: the fields of the latched registers (10_state.md R23, R25, R33), and
the running command itself with the spaces it reads and writes (20_memory.md R51, 70_reset_and_hazards.md R229).
-/

namespace Sys2Proof.Machine

/-- `L_CTRL.TDS`: true is unsigned addressing (10_state.md R23). -/
def State.tds (s : State) : Bool := s.lCtrl.getLsbD 0

/-- `L_CTRL.MSEL`: true selects MAP1 (10_state.md R23). -/
def State.msel (s : State) : Bool := s.lCtrl.getLsbD 1

/-- `L_CTRL.CMODE`: true is colour mode (10_state.md R23). -/
def State.cmode (s : State) : Bool := s.lCtrl.getLsbD 2

/-- `L_CTRL.BGIDX` (10_state.md R23). -/
def State.bgidx (s : State) : Pixel := s.lCtrl.extractLsb' 4 2

/-- `L_SCROLL.SCX` (10_state.md R25). -/
def State.scx (s : State) : Nat := (s.lScroll.extractLsb' 0 8).toNat

/-- `L_SCROLL.SCY` (10_state.md R25). -/
def State.scy (s : State) : Nat := (s.lScroll.extractLsb' 8 8).toNat

/-- The writable bits of CTRL: TDS, MSEL, CMODE and BGIDX (10_state.md R23, R24). -/
def ctrlMask : Word := 0x00000037#32

/-- The writable bits of SCROLL: SCX and SCY (10_state.md R25). -/
def scrollMask : Word := 0x0000FFFF#32

/-- The running command, none while Idle (10_state.md R32). -/
def State.current (s : State) : Option Instr :=
  match s.seq with
  | .idle => none
  | .running word =>
    match decode word with
    | .command i => some i
    | .illegal _ => none

/-- The commands that read VRAM (20_memory.md R51; the VRAM rows of 70_reset_and_hazards.md R229). -/
def readsVram : Instr → Bool
  | .nop => false
  | .clear => false
  | .compose => true
  | .convert => false
  | .frame => true
  | .unpack _ _ _ => true
  | .lut _ => false
  | .resample _ _ => false
  | .expand _ => false

/-- The commands that read the CSB, in colour mode only (20_memory.md R51, 70_reset_and_hazards.md R229). -/
def readsCsb (cmode : Bool) : Instr → Bool
  | .nop => false
  | .clear => false
  | .compose => false
  | .convert => cmode
  | .frame => cmode
  | .unpack _ _ _ => false
  | .lut _ => false
  | .resample _ _ => false
  | .expand _ => false

/-- The commands that write the IFB (20_memory.md R51; the IFB rows of 70_reset_and_hazards.md R229). -/
def writesIfb : Instr → Bool
  | .nop => false
  | .clear => true
  | .compose => true
  | .convert => false
  | .frame => true
  | .unpack _ _ _ => false
  | .lut _ => false
  | .resample _ _ => false
  | .expand _ => false

/-- The commands that write OUT (20_memory.md R51; the OUT rows of 70_reset_and_hazards.md R229). -/
def writesOut : Instr → Bool
  | .nop => false
  | .clear => false
  | .compose => false
  | .convert => true
  | .frame => true
  | .unpack _ _ _ => false
  | .lut _ => false
  | .resample _ _ => false
  | .expand _ => false

/-- A running command satisfies `p`. -/
def State.runs (s : State) (p : Instr → Bool) : Bool :=
  match s.current with
  | none => false
  | some i => p i

end Sys2Proof.Machine
end

