-- ==== Sys2Proof/Machine/Flags.lean ====
section
/-!
DEFINITION. The status flags. The block has no condition codes and no arithmetic flags (10_state.md R39); its only flags
are STATUS.BUSY, STATUS.ILL and STATUS.OVR (R27).
-/

namespace Sys2Proof.Machine

/-- STATUS.BUSY reads 1 exactly while SEQ is Running (10_state.md R32). -/
def State.busy (s : State) : Bool :=
  match s.seq with
  | .idle => false
  | .running _ => true

/-- STATUS as the host reads it: BUSY at bit 0, ILL at bit 8, OVR at bit 9, every other bit 0 (10_state.md R27). -/
def State.status (s : State) : Word :=
  place 9 (BitVec.ofBool s.ovr) ||| place 8 (BitVec.ofBool s.ill) ||| place 0 (BitVec.ofBool s.busy)

end Sys2Proof.Machine
end

