-- ==== Sys2Proof/Machine/TileUnpacker.lean ====
section
/-!
DEFINITION. The tile bitmap unpacker: bitplane unpacking, tile addressing, the pixel fetch, and UNPACK
(40_tile_bitmap_unpacker.md).
-/

namespace Sys2Proof.Machine

/-- `unpack2`: bit 7 is column 0, the low plane gives bit 0 (40_tile_bitmap_unpacker.md R100). -/
def unpack2 (lo hi : Byte) (x : Nat) : Pixel :=
  ((BitVec.ofBool (hi.getLsbD (7 - x))).setWidth 2 <<< 1) ||| (BitVec.ofBool (lo.getLsbD (7 - x))).setWidth 2

/-- `tile_number`: zero-extended in unsigned mode, sign-extended in signed mode (40_tile_bitmap_unpacker.md R101). -/
def tileNumber (idx : Byte) (tds : Bool) : Int :=
  if tds then (idx.toNat : Int) else idx.toInt

/-- `tile_addr`: the mode's base plus 16 times the tile number (40_tile_bitmap_unpacker.md R102). It is never negative
for a valid configuration (R103). -/
def tileAddr (c : Config) (idx : Byte) (tds : Bool) : Nat :=
  (((if tds then c.ubase else c.sbase : Nat) : Int) + 16 * tileNumber idx tds).toNat

/-- `fetch_pixel`: the two bytes of the row, then the column (40_tile_bitmap_unpacker.md R103, R104). The low byte is
draw `k` and the high byte draw `k + 1` where VRAM is unwritten. -/
def State.fetchPixel (s : State) (idx : Byte) (y x k : Nat) : Pixel :=
  let a := tileAddr s.cfg idx s.tds + 2 * y
  unpack2 (s.vram.read a k) (s.vram.read (a + 1) (k + 1)) x

/-- UNPACK: the low-plane byte address in RESULT bits 31:16 and the pixel in bits 1:0 (40_tile_bitmap_unpacker.md
R105). -/
def execUnpack (idx : BitVec 8) (row col : BitVec 3) (s : State) : Host.Outcome State Fault Refusal :=
  let a := tileAddr s.cfg idx s.tds + 2 * row.toNat
  let p := s.fetchPixel idx row.toNat col.toNat s.draws
  .next (((s.setResult (place 16 (BitVec.ofNat 16 a) ||| place 0 p)).useDraws 2).complete)

end Sys2Proof.Machine
end

