-- ==== Sys2Proof/Machine/Compositor.lean ====
section
/-!
DEFINITION. The tile compositor with scroll: the map read, COMPOSE and CLEAR (41_tile_compositor_with_scroll.md).
COMPOSE is written by the closed form of R125, which that rule allows; Machine/Loops.lean holds the loop of R123.
-/

namespace Sys2Proof.Machine

/-- `map_index`: the index byte of a map cell, draw `k` where VRAM is unwritten (41_tile_compositor_with_scroll.md
R120). -/
def State.mapIndex (s : State) (tiley tilex k : Nat) : Byte :=
  s.vram.read ((if s.msel then s.cfg.map1 else s.cfg.map0) + 32 * tiley + tilex) k

/-- The draws one map cell may use: its index byte, then two bytes for each of its 64 pixels. -/
def drawsPerTile : Nat := 129

/-- The pixel of map cell `(tiley, tilex)` at row `y`, column `x` (41_tile_compositor_with_scroll.md R123). Its draws are
numbered in the order of that rule's loop, the index byte of a cell once for its 64 pixels (log 26). -/
def State.tilePixel (s : State) (tiley tilex y x : Nat) : Pixel :=
  let k := s.draws + drawsPerTile * (32 * tiley + tilex)
  s.fetchPixel (s.mapIndex tiley tilex k) y x (k + 1 + 2 * (8 * y + x))

/-- The pixel of the canvas at `(cx, cy)`, `0 ≤ cx, cy < 256` (41_tile_compositor_with_scroll.md R125). -/
def State.canvasPixel (s : State) (cx cy : Nat) : Pixel :=
  s.tilePixel (cy / 8) (cx / 8) (cy % 8) (cx % 8)

/-- The IFB written by COMPOSE: cell `(sx, sy)` shows canvas `((sx + SCX) mod 256, (sy + SCY) mod 256)`
(41_tile_compositor_with_scroll.md R121, R122, R125). -/
def State.composedIfb (s : State) : Memory 2 :=
  s.ifb.fill 0 (s.cfg.w * s.cfg.h) fun a =>
    some (s.canvasPixel ((a % s.cfg.w + s.scx) % 256) ((a / s.cfg.w + s.scy) % 256))

/-- The performance of COMPOSE: the IFB and nothing else (41_tile_compositor_with_scroll.md R123). -/
def State.compose (s : State) : State :=
  { s with ifb := s.composedIfb, draws := s.draws + drawsPerTile * 1024 }

/-- The performance of CLEAR: every cell becomes BGIDX (41_tile_compositor_with_scroll.md R127). -/
def State.clear (s : State) : State :=
  { s with ifb := s.ifb.fill 0 (s.cfg.w * s.cfg.h) fun _ => some s.bgidx }

/-- CLEAR (41_tile_compositor_with_scroll.md R127). -/
def execClear (s : State) : Host.Outcome State Fault Refusal :=
  .next s.clear.complete

/-- COMPOSE (41_tile_compositor_with_scroll.md R123, R125). -/
def execCompose (s : State) : Host.Outcome State Fault Refusal :=
  .next s.compose.complete

end Sys2Proof.Machine
end

