-- ==== Sys2Proof/Machine/BitExpand.lean ====
section
/-!
DEFINITION. RGB555 bit expansion and output packing (44_bit_expand_rgb.md).
-/

namespace Sys2Proof.Machine

/-- `c5 << 3` as an 8-bit channel: the low three bits are 0 (44_bit_expand_rgb.md R171). -/
def widen (c5 : BitVec 5) : Byte := c5.setWidth 8 <<< 3

/-- `pack`: four channels in the order of `OUT_PACK`, the first named highest (44_bit_expand_rgb.md R172). -/
def pack (o : OutPack) (r8 g8 b8 a8 : Byte) : Word :=
  match o with
  | .rgba8888 => place 24 r8 ||| place 16 g8 ||| place 8 b8 ||| place 0 a8
  | .argb8888 => place 24 a8 ||| place 16 r8 ||| place 8 g8 ||| place 0 b8
  | .abgr8888 => place 24 a8 ||| place 16 b8 ||| place 8 g8 ||| place 0 r8
  | .bgra8888 => place 24 b8 ||| place 16 g8 ||| place 8 r8 ||| place 0 a8

/-- `expand_pixel`: red from bits 4:0, green from 9:5, blue from 14:10, bit 15 ignored, alpha 0xFF
(44_bit_expand_rgb.md R170, R171, R173). -/
def expandPixel (c : Config) (sample : Half) : Word :=
  pack c.outPack (widen (sample.extractLsb' 0 5)) (widen (sample.extractLsb' 5 5)) (widen (sample.extractLsb' 10 5))
    0xFF#8

/-- EXPAND: the expanded sample in RESULT (44_bit_expand_rgb.md R174). -/
def execExpand (sample : BitVec 16) (s : State) : Host.Outcome State Fault Refusal :=
  .next (s.setResult (expandPixel s.cfg sample)).complete

end Sys2Proof.Machine
end

