-- ==== Sys2Proof/Machine/PaletteLut.lean ====
section
/-!
DEFINITION. The colour palette LUT (42_color_palette_lut.md).
-/

namespace Sys2Proof.Machine

/-- `LUT[k]`, which is `PALETTE[k]` at every moment (10_state.md R34, 42_color_palette_lut.md R140). -/
def lutEntry (c : Config) (p : Pixel) : Word :=
  if p = 0#2 then c.palette.entry0
  else if p = 1#2 then c.palette.entry1
  else if p = 2#2 then c.palette.entry2
  else c.palette.entry3

/-- LUT: the palette entry in RESULT (42_color_palette_lut.md R142). -/
def execLut (pix : BitVec 2) (s : State) : Host.Outcome State Fault Refusal :=
  .next (s.setResult (lutEntry s.cfg pix)).complete

end Sys2Proof.Machine
end

