-- ==== Sys2Proof/Machine/Resampler.lean ====
section
/-!
DEFINITION. The nearest-neighbour resampler: source coordinates, row placement, CONVERT and RESAMPLE
(43_nearest_neighbor_resampler.md). CONVERT is written word by word of OUT, which R62 of 20_memory.md and R156 allow;
Machine/Loops.lean holds the loop of R153.
-/

namespace Sys2Proof.Machine

/-- `xs = (xo * Wl) // Wo` (43_nearest_neighbor_resampler.md R150). -/
def sourceX (c : Config) (xo : Nat) : Nat := xo * c.w / c.wo

/-- `ys = (yo * Hl) // Ho` (43_nearest_neighbor_resampler.md R150). -/
def sourceY (c : Config) (yo : Nat) : Nat := yo * c.h / c.ho

/-- `place_row` (43_nearest_neighbor_resampler.md R152). -/
def placeRow (c : Config) (yo : Nat) : Nat :=
  if c.rowFlip then c.rowOffset + (c.ho - 1 - yo) else c.rowOffset + yo

/-- The output row placed at OUT row `row`, for a row CONVERT writes: the inverse of `place_row`
(43_nearest_neighbor_resampler.md R152). -/
def unplaceRow (c : Config) (row : Nat) : Nat :=
  if c.rowFlip then c.ho - 1 - (row - c.rowOffset) else row - c.rowOffset

/-- `CSB(x, y)`, two bytes, the lower address lower (20_memory.md R55); draws `k` and `k + 1` where unwritten. -/
def State.csbSample (s : State) (x y k : Nat) : Half :=
  ((s.csb.read (2 * (y * s.cfg.w + x) + 1) (k + 1)).setWidth 16 <<< 8) |||
    (s.csb.read (2 * (y * s.cfg.w + x)) k).setWidth 16

/-- `VIEW(sx, sy) = LUT[IFB(sx, sy)]`: the viewport's display colours, a view that is not stored
(41_tile_compositor_with_scroll.md R128); draw `k` where the cell is unwritten. -/
def State.view (s : State) (sx sy k : Nat) : Word := lutEntry s.cfg (s.ifb.read (sy * s.cfg.w + sx) k)

/-- `src_colour`: the palette entry of the IFB cell, or the expanded CSB sample in colour mode
(43_nearest_neighbor_resampler.md R154). A palette entry is not repacked (42_color_palette_lut.md R141). -/
def State.srcColour (s : State) (xs ys k : Nat) : Word :=
  if s.cmode then expandPixel s.cfg (s.csbSample xs ys k)
  else s.view xs ys k

/-- The word of output pixel `(xo, yo)` (43_nearest_neighbor_resampler.md R153). Each output pixel has two draws of its
own (log 26). -/
def State.outPixel (s : State) (xo yo : Nat) : Word :=
  s.srcColour (sourceX s.cfg xo) (sourceY s.cfg yo) (s.draws + 2 * (yo * s.cfg.wo + xo))

/-- The external byte address of `OUT(col, row)` (20_memory.md R56). -/
def outAddr (c : Config) (col row : Nat) : Nat := c.outBase + 4 * (row * c.outStride + col)

/-- The number of bytes of OUT (10_state.md R38). -/
def outBytes (c : Config) : Nat := 4 * (c.outRows * c.outStride)

/-- What CONVERT writes at an external byte address of OUT, none where it writes nothing
(43_nearest_neighbor_resampler.md R153, R156). -/
def State.convertByte (s : State) (a : Nat) : Option Byte :=
  let word := (a - s.cfg.outBase) / 4
  let col := word % s.cfg.outStride
  let row := word / s.cfg.outStride
  if col < s.cfg.wo ∧ s.cfg.rowOffset ≤ row ∧ row < s.cfg.rowOffset + s.cfg.ho then
    some (byteAt (s.outPixel col (unplaceRow s.cfg row)) ((a - s.cfg.outBase) % 4))
  else none

/-- The performance of CONVERT: OUT and nothing else (43_nearest_neighbor_resampler.md R153). -/
def State.convert (s : State) : State :=
  { s with out := s.out.fill s.cfg.outBase (outBytes s.cfg) s.convertByte,
           draws := s.draws + 2 * (s.cfg.wo * s.cfg.ho) }

/-- CONVERT (43_nearest_neighbor_resampler.md R153). -/
def execConvert (s : State) : Host.Outcome State Fault Refusal :=
  .next s.convert.complete

/-- RESAMPLE: `ys` and `xs`, each reduced mod 2^16, in RESULT; a coordinate outside the output is allowed
(43_nearest_neighbor_resampler.md R155). -/
def execResample (xo yo : BitVec 12) (s : State) : Host.Outcome State Fault Refusal :=
  let xs := sourceX s.cfg xo.toNat
  let ys := sourceY s.cfg yo.toNat
  .next (s.setResult (place 16 (BitVec.ofNat 16 ys) ||| place 0 (BitVec.ofNat 16 xs))).complete

end Sys2Proof.Machine
end

