-- ==== Sys2Proof/Machine/Sequencing.lean ====
section
/-!
DEFINITION. The sequencing commands NOP and FRAME (45_sequencing.md).
-/

namespace Sys2Proof.Machine

/-- NOP: it completes with no effect; its latching happened at acceptance (45_sequencing.md R180). -/
def execNop (s : State) : Host.Outcome State Fault Refusal :=
  .next s.complete

/-- FRAME: COMPOSE then CONVERT with the same latches, one completion (45_sequencing.md R181). -/
def execFrame (s : State) : Host.Outcome State Fault Refusal :=
  .next s.compose.convert.complete

end Sys2Proof.Machine
end

