-- ==== Sys2Proof/Machine/Dispatch.lean ====
section
/-!
DEFINITION. The one dispatch from a command to its meaning.
-/

namespace Sys2Proof.Machine

def exec (i : Instr) (s : State) : Host.Outcome State Fault Refusal :=
  match i with
  | .nop => Sys2Proof.Machine.execNop s
  | .clear => Sys2Proof.Machine.execClear s
  | .compose => Sys2Proof.Machine.execCompose s
  | .convert => Sys2Proof.Machine.execConvert s
  | .frame => Sys2Proof.Machine.execFrame s
  | .unpack idx row col => Sys2Proof.Machine.execUnpack idx row col s
  | .lut pix => Sys2Proof.Machine.execLut pix s
  | .resample xo yo => Sys2Proof.Machine.execResample xo yo s
  | .expand sample => Sys2Proof.Machine.execExpand sample s

end Sys2Proof.Machine
end

