-- ==== Sys2Proof/Machine/HostAccess.lean ====
section
/-!
DEFINITION. What the agents outside the block do to it: the register window (10_state.md R22 to R31), the memory windows
(20_memory.md R50 to R58), accesses to OUT (20_memory.md R56, R64), reset (70_reset_and_hazards.md R220, R221), and the
block's own turn (70_reset_and_hazards.md R228).
-/

namespace Sys2Proof.Machine

/-! ## The register window -/

/-- What a 32-bit read of a register offset returns (10_state.md R22, R26, R27, R29, R30; an offset not listed reads 0,
R31). -/
def State.readRegister (s : State) (off : Nat) : Word :=
  match off with
  | 0x00 => s.ctrl
  | 0x04 => s.scroll
  | 0x0C => s.status
  | 0x10 => s.result
  | 0x20 => lutEntry s.cfg 0#2
  | 0x24 => lutEntry s.cfg 1#2
  | 0x28 => lutEntry s.cfg 2#2
  | 0x2C => lutEntry s.cfg 3#2
  | _ => 0x00000000#32

/-- A 32-bit write to a register offset: reserved bits are ignored (10_state.md R24), CMD offers a command (R26), STATUS
clears the error bits it names (R28), and a write to RESULT, to a PAL register or to an offset not listed is ignored
(R22, R30, R31). -/
def State.writeRegister (s : State) (off : Nat) (v : Word) : State :=
  match off with
  | 0x00 => { s with ctrl := v &&& ctrlMask }
  | 0x04 => { s with scroll := v &&& scrollMask }
  | 0x08 => s.offerCommand v
  | 0x0C => s.clearErr v
  | _ => s

/-! ## The memory windows -/

/-- The parts of the host window (20_memory.md R50). -/
inductive Region where
  | registers
  | unmapped
  | vram
  | csb
  | ifb
  deriving DecidableEq, Repr

/-- The size of the window in bytes (20_memory.md R50). -/
def windowBytes : Nat := 0x50000

/-- The region an offset of the window lies in (20_memory.md R50). -/
def regionOf (off : Nat) : Region :=
  if off < 0x01000 then .registers
  else if off < 0x02000 then .unmapped
  else if off < 0x04000 then .vram
  else if off < 0x20000 then .unmapped
  else if off < 0x40000 then .csb
  else if off < windowBytes then .ifb
  else .unmapped

/-- The VRAM address at an offset, none where the offset names no VRAM byte (20_memory.md R50, R53). -/
def vramAt (c : Config) (off : Nat) : Option Nat :=
  if regionOf off = .vram ∧ off - 0x02000 < c.vramSize then some (off - 0x02000) else none

/-- The CSB byte at an offset, none where the offset names no CSB byte (20_memory.md R50, R55). -/
def csbAt (c : Config) (off : Nat) : Option Nat :=
  if regionOf off = .csb ∧ off - 0x20000 < 2 * (c.w * c.h) then some (off - 0x20000) else none

/-- The IFB cell at an offset, none where the offset names no cell (20_memory.md R50, R54). -/
def ifbAt (c : Config) (off : Nat) : Option Nat :=
  if regionOf off = .ifb ∧ off - 0x40000 < c.w * c.h then some (off - 0x40000) else none

/-- An IFB cell as the host reads it: any 2-bit value while COMPOSE, CLEAR or FRAME runs (20_memory.md R64 item 2), else
the cell (20_memory.md R54). -/
def State.hostCell (s : State) (cell k : Nat) : Pixel :=
  if s.runs writesIfb then Config.freeValue 2 k else s.ifb.read cell k

/-- One byte of the memory windows as the host reads it; 0 where nothing is (20_memory.md R50, R53 to R55). -/
def State.windowByte (s : State) (off k : Nat) : Byte :=
  match vramAt s.cfg off with
  | some a => s.vram.read a k
  | none =>
    match csbAt s.cfg off with
    | some a => s.csb.read a k
    | none =>
      match ifbAt s.cfg off with
      | some a => (s.hostCell a k).setWidth 8
      | none => 0#8

/-- One byte written by the host: VRAM and the CSB take it, every other offset ignores it (20_memory.md R50, R53 to
R55). -/
def State.storeByte (s : State) (off : Nat) (b : Byte) : State :=
  match vramAt s.cfg off with
  | some a => { s with vram := s.vram.set a b }
  | none =>
    match csbAt s.cfg off with
    | some a => { s with csb := s.csb.set a b }
    | none => s

/-- The first `n` bytes of `v` written little-endian from an offset (20_memory.md R52, R58). -/
def State.storeBytes (s : State) (off : Nat) (v : Word) : Nat → State
  | 0 => s
  | n + 1 => (s.storeBytes off v n).storeByte (off + n) (byteAt v n)

/-- The race a host write to one byte makes with the running command (20_memory.md R64 item 1,
70_reset_and_hazards.md R229). A write the window ignores is none (log 24). -/
def State.raceAt (s : State) (off : Nat) : Option Fault :=
  if (vramAt s.cfg off).isSome && s.runs readsVram then some .vramRace
  else if (csbAt s.cfg off).isSome && s.runs (readsCsb s.cmode) then some .csbRace
  else none

/-- The race of a write of `n` bytes: that of its first racing byte. -/
def State.raceIn (s : State) (off : Nat) : Nat → Option Fault
  | 0 => none
  | n + 1 =>
    match s.raceIn off n with
    | some f => some f
    | none => s.raceAt (off + n)

/-- An access of the memory windows is misaligned (20_memory.md R58). Where every byte is unmapped, R50 lets any access
be (log 15). -/
def misaligned (off n : Nat) : Bool :=
  decide (off % n ≠ 0) && !(decide (regionOf off = .unmapped) && decide (regionOf (off + n - 1) = .unmapped))

/-- A read at a window offset: `answer` becomes the value and nothing else of the block changes
(20_memory.md R57, R58, R61). -/
def hostRead (s : State) (off : Nat) (width : Width) : Host.Outcome State Fault Refusal :=
  if off < 0x01000 then
    if width = .w32 ∧ off % 4 = 0 then .next { s with answer := some (s.readRegister off) }
    else .refused .badRegisterAccess
  else if misaligned off width.bytes then .refused .misalignedAccess
  else
    .next { s with answer := some (joinBytes width fun i => s.windowByte (off + i) (s.draws + i)),
                   draws := s.draws + 4 }

/-- A write at a window offset (20_memory.md R57, R58); a race faults (93_implementation_defined.md U2). -/
def hostWrite (s : State) (off : Nat) (width : Width) (v : Word) : Host.Outcome State Fault Refusal :=
  if off < 0x01000 then
    if width = .w32 ∧ off % 4 = 0 then .next (s.writeRegister off v)
    else .refused .badRegisterAccess
  else if misaligned off width.bytes then .refused .misalignedAccess
  else
    match s.raceIn off width.bytes with
    | some f => .fault f
    | none => .next (s.storeBytes off v width.bytes)

/-- A host byte address lies in the block's window (20_memory.md R50). -/
def inWindow (c : Config) (addr : Nat) : Bool :=
  decide (c.blockBase ≤ addr) && decide (addr < c.blockBase + windowBytes)

/-! ## The block's turn -/

/-- The running command is performed and completes, as one atomic step (70_reset_and_hazards.md R228); an idle block
keeps everything (60_exceptions.md R211). -/
def State.blockTurn (s : State) : Host.Outcome State Fault Refusal :=
  match s.seq with
  | .idle => .next s
  | .running word =>
    match decode word with
    | .command i => exec i s
    | .illegal op => .refused (.runningIllegal op)

/-! ## OUT, in external memory -/

/-- The address of an aligned word of OUT (20_memory.md R56). -/
def inOut (c : Config) (addr : Nat) : Bool :=
  decide (c.outBase ≤ addr) && decide (addr < c.outBase + outBytes c) && decide ((addr - c.outBase) % 4 = 0)

/-- A word of OUT as another agent reads it: the word that stands there, and while CONVERT or FRAME runs that word or the
new one, as a free draw says (20_memory.md R61, R64 item 3). -/
def outRead (s : State) (addr : Nat) : Host.Outcome State Fault Refusal :=
  if inOut s.cfg addr then
    if s.runs writesOut then
      match (s.useDraws 1).blockTurn with
      | .next t =>
        let source := if Config.freeValue 1 s.draws = 1#1 then t.out else s.out
        .next { s with answer := some (source.outWord addr), draws := t.draws }
      | .fault f => .fault f
      | .refused r => .refused r
    else .next { s with answer := some (s.out.outWord addr) }
  else .refused .outsideOut

/-- A word of OUT written by an agent outside the block; a race while CONVERT or FRAME runs (log 12). -/
def outWrite (s : State) (addr : Nat) (v : Word) : Host.Outcome State Fault Refusal :=
  if inOut s.cfg addr then
    if s.runs writesOut then .fault .outRace
    else .next { s with out := s.out.setWord addr v }
  else .refused .outsideOut

/-! ## Reset -/

/-- Memory after a reset that stopped a command whose performance would have given `t`: where it was a COMPOSE, CLEAR
or FRAME each IFB cell, and where it was a CONVERT or FRAME each OUT word, is the old one or the new one, as draws from
`k` on say (70_reset_and_hazards.md R221). -/
def State.mixMemories (s t : State) (k : Nat) : State :=
  { s with
    ifb :=
      if s.runs writesIfb then
        s.ifb.fill 0 (s.cfg.w * s.cfg.h) fun a => if Config.freeValue 1 (k + a) = 1#1 then t.ifb.get a else none
      else s.ifb,
    out :=
      if s.runs writesOut then
        s.out.fill s.cfg.outBase (outBytes s.cfg) fun a =>
          if Config.freeValue 1 (k + s.cfg.w * s.cfg.h + (a - s.cfg.outBase) / 4) = 1#1 then t.out.get a else none
      else s.out,
    draws := t.draws }

/-- The draws `mixMemories` may use. -/
def mixDraws (c : Config) : Nat := c.w * c.h + c.outRows * c.outStride

/-- Reset (70_reset_and_hazards.md R220, R221): a running command stops with any part of its IFB and OUT writes done,
and the registers take their reset values. -/
def State.hostReset (s : State) : State :=
  match s.seq with
  | .idle => s.resetRegisters
  | .running _ =>
    match (s.useDraws (mixDraws s.cfg)).blockTurn with
    | .next t => (s.mixMemories t s.draws).resetRegisters
    | .fault _ => s.resetRegisters
    | .refused _ => s.resetRegisters

/-! ## One turn -/

/-- The effect of one turn of the world outside the block (70_reset_and_hazards.md R236). -/
def takeTurn (t : Turn) (s : State) : Host.Outcome State Fault Refusal :=
  match t with
  | .read addr width =>
    if inWindow s.cfg addr then hostRead s (addr - s.cfg.blockBase) width else .refused .outsideWindow
  | .write addr width v =>
    if inWindow s.cfg addr then hostWrite s (addr - s.cfg.blockBase) width v else .refused .outsideWindow
  | .outRead addr => outRead s addr
  | .outWrite addr v => outWrite s addr v
  | .reset => .next s.hostReset
  | .pass => s.blockTurn

/-- One step on a valid configuration: the next turn of the inbox, or the block's turn when the inbox is empty
(log 7). An invalid configuration is refused before any step (00_scope.md R9). -/
def nextTurn (s : State) : Host.Outcome State Fault Refusal :=
  if validConfig s.cfg then
    match s.inbox with
    | [] => s.blockTurn
    | t :: rest => takeTurn t { s with inbox := rest }
  else .refused .invalidConfig

/-- The host has issued `word` and the block is to move: the word is offered to an idle block (30_encoding.md R70), and
the next turn is the block's (log 10). -/
def State.issue (s : State) (word : Word) : State :=
  let t := State.offerCommand { s with seq := .idle } word
  { t with inbox := .pass :: t.inbox }

end Sys2Proof.Machine
end

