-- ==== Sys2Proof/Machine/Step.lean ====
section
/-!
DEFINITION. The step of the machine, and the placing of a command word for it.
-/

namespace Sys2Proof.Machine

/-- One step: a turn of the outside agents or of the block. -/
def step (s : State) : Host.Outcome State Fault Refusal := nextTurn s

/-- `s` with the opcode-table word accepted as the running command (30_encoding.md R70), so that the next step performs
exactly it (log 10). -/
def State.withFetchWord (s : State) (nbits w : Nat) : State := s.issue (tableWord nbits w)

end Sys2Proof.Machine
end

