-- ==== Sys2Proof/Machine/Loops.lean ====
section
/-!
DEFINITION. The loops of CLEAR, COMPOSE and CONVERT as the spec's pseudocode writes them, one write at a time
(41_tile_compositor_with_scroll.md R123, R127, 43_nearest_neighbor_resampler.md R153). The meanings use the one-pass
forms; that the two agree is an obligation.
-/

namespace Sys2Proof.Machine

/-- `screen_x`: canvas column minus SCX, wrapped into `[0, 256)` (41_tile_compositor_with_scroll.md R121). -/
def State.screenX (s : State) (tilex x : Nat) : Nat :=
  ((((8 * tilex + x : Nat) : Int) - (s.scx : Int)) % 256).toNat

/-- `screen_y`: canvas row minus SCY, wrapped into `[0, 256)` (41_tile_compositor_with_scroll.md R121). -/
def State.screenY (s : State) (tiley y : Nat) : Nat :=
  ((((8 * tiley + y : Nat) : Int) - (s.scy : Int)) % 256).toNat

/-- The body of COMPOSE's innermost loop: a pixel outside the viewport is skipped (41_tile_compositor_with_scroll.md
R122, R123). -/
def State.composePixel (s : State) (tiley tilex y x : Nat) (m : Memory 2) : Memory 2 :=
  if s.screenX tilex x < s.cfg.w ∧ s.screenY tiley y < s.cfg.h then
    m.set (s.screenY tiley y * s.cfg.w + s.screenX tilex x) (s.tilePixel tiley tilex y x)
  else m

/-- The IFB after COMPOSE's loop nest (41_tile_compositor_with_scroll.md R123). -/
def State.composeLoop (s : State) : Memory 2 :=
  (List.range 32).foldl (fun m tiley =>
    (List.range 32).foldl (fun m tilex =>
      (List.range 8).foldl (fun m y =>
        (List.range 8).foldl (fun m x => s.composePixel tiley tilex y x m) m) m) m) s.ifb

/-- The IFB after CLEAR's loop nest (41_tile_compositor_with_scroll.md R127). -/
def State.clearLoop (s : State) : Memory 2 :=
  (List.range s.cfg.h).foldl (fun m sy =>
    (List.range s.cfg.w).foldl (fun m sx => m.set (sy * s.cfg.w + sx) s.bgidx) m) s.ifb

/-- OUT after CONVERT's loop nest (43_nearest_neighbor_resampler.md R153). -/
def State.convertLoop (s : State) : Memory 8 :=
  (List.range s.cfg.ho).foldl (fun m yo =>
    (List.range s.cfg.wo).foldl (fun m xo =>
      m.setWord (outAddr s.cfg xo (placeRow s.cfg yo)) (s.outPixel xo yo)) m) s.out

end Sys2Proof.Machine
end

