-- ==== Sys2Proof/Machine/HostLines.lean ====
section
/-!
DEFINITION. The lines of host programs as turns of the inbox (30_encoding.md R79 to R81). They are host accesses, not
commands.
-/

namespace Sys2Proof.Machine

/-- The registers a host program names (10_state.md R22). -/
inductive HostRegister where
  | ctrl
  | scroll
  | cmd
  | status
  | result
  | pal0
  | pal1
  | pal2
  | pal3
  deriving DecidableEq, Repr

/-- The window offset of a register (10_state.md R22). -/
def HostRegister.offset : HostRegister → Nat
  | .ctrl => 0x00
  | .scroll => 0x04
  | .cmd => 0x08
  | .status => 0x0C
  | .result => 0x10
  | .pal0 => 0x20
  | .pal1 => 0x24
  | .pal2 => 0x28
  | .pal3 => 0x2C

/-- `WR32 REG, v` (30_encoding.md R80). -/
def wr32 (c : Config) (r : HostRegister) (v : Word) : Turn := .write (c.blockBase + r.offset) .w32 v

/-- `RD32 REG` (30_encoding.md R80). -/
def rd32 (c : Config) (r : HostRegister) : Turn := .read (c.blockBase + r.offset) .w32

/-- `WR8 VRAM[a], v` (30_encoding.md R80, 20_memory.md R53). -/
def wr8Vram (c : Config) (a : Nat) (v : Byte) : Turn := .write (c.blockBase + 0x02000 + a) .w8 (v.setWidth 32)

/-- `WR16 CSB[x, y], v` (30_encoding.md R80, 20_memory.md R55). -/
def wr16Csb (c : Config) (x y : Nat) (v : Half) : Turn :=
  .write (c.blockBase + 0x20000 + 2 * (y * c.w + x)) .w16 (v.setWidth 32)

/-- `RD8 IFB[x, y]` (30_encoding.md R80, 20_memory.md R54). -/
def rd8Ifb (c : Config) (x y : Nat) : Turn := .read (c.blockBase + 0x40000 + (y * c.w + x)) .w8

/-- A bare command line is a host write of its word to CMD (30_encoding.md R79). -/
def issueLine (c : Config) (i : Instr) : Turn := wr32 c .cmd (encode i)

/-- `WAIT` when the command completes after `polls` polls that read busy: the loop leaves on the next poll
(30_encoding.md R81, 93_implementation_defined.md U10). -/
def waitLine (c : Config) (polls : Nat) : List Turn :=
  List.replicate polls (rd32 c .status) ++ [.pass, rd32 c .status]

/-- `RUN cmd` (30_encoding.md R81). -/
def runLine (c : Config) (i : Instr) (polls : Nat) : List Turn := issueLine c i :: waitLine c polls

/-- `SETMODE tds, msel, cmode, bgidx` (30_encoding.md R81). -/
def setMode (c : Config) (tds msel cmode bgidx : Nat) : Turn :=
  wr32 c .ctrl (BitVec.ofNat 32 (tds + (msel <<< 1) + (cmode <<< 2) + (bgidx <<< 4)))

/-- `SETSCROLL scx, scy` (30_encoding.md R81). -/
def setScroll (c : Config) (scx scy : Nat) : Turn := wr32 c .scroll (BitVec.ofNat 32 (scx + (scy <<< 8)))

/-- `CLRERR` (30_encoding.md R81). -/
def clrErr (c : Config) : Turn := wr32 c .status 0x00000300#32

/-- `FILL8 VRAM[a..b], v` (30_encoding.md R81). -/
def fill8Vram (c : Config) (a b : Nat) (v : Byte) : List Turn :=
  (List.range' a (b - a)).map fun i => wr8Vram c i v

/-- `FILL16 CSB, f(x, y)` (30_encoding.md R81). -/
def fill16Csb (c : Config) (f : Nat → Nat → Half) : List Turn :=
  (List.range c.h).flatMap fun y => (List.range c.w).map fun x => wr16Csb c x y (f x y)

end Sys2Proof.Machine
end

