-- ==== Sys2Proof/Safety.lean ====
section
/-!
DEFINITION. What claims call a good state: the invariant every step keeps, and what claims say of an outcome.
-/

namespace Sys2Proof.Machine

/-- The bits of CTRL-like words that are reserved read 0 (10_state.md R24). -/
def ctrlClean (v : Word) : Bool := decide (v &&& ~~~ctrlMask = 0#32)

/-- The bits of SCROLL-like words that are reserved read 0 (10_state.md R24, R25). -/
def scrollClean (v : Word) : Bool := decide (v &&& ~~~scrollMask = 0#32)

/-- A running word is a command (10_state.md R32: an accepted command). -/
def State.runsCommand (s : State) : Bool :=
  match s.seq with
  | .idle => true
  | .running word =>
    match decode word with
    | .command _ => true
    | .illegal _ => false

/-- The invariant: the configuration is valid, reserved bits read 0 in CTRL, SCROLL and both latches, a running word is
a command, every memory is in canonical form and lists no cell it does not have (10_state.md R24, R32, R33, R35 to
R38). -/
structure State.Inv (s : State) : Prop where
  config : validConfig s.cfg = true
  ctrl : ctrlClean s.ctrl = true
  scroll : scrollClean s.scroll = true
  lCtrl : ctrlClean s.lCtrl = true
  lScroll : scrollClean s.lScroll = true
  seq : s.runsCommand = true
  vramForm : s.vram.wf
  csbForm : s.csb.wf
  ifbForm : s.ifb.wf
  outForm : s.out.wf
  vramBounds : s.vram.within 0 s.cfg.vramSize = true
  csbBounds : s.csb.within 0 (2 * (s.cfg.w * s.cfg.h)) = true
  ifbBounds : s.ifb.within 0 (s.cfg.w * s.cfg.h) = true
  outBounds : s.out.within s.cfg.outBase (s.cfg.outBase + outBytes s.cfg) = true

/-- A cell of a memory that something has written. -/
def Written {w : Nat} (m : Memory w) (a : Nat) : Prop := (m.get a).isSome = true

/-- The four probe commands (10_state.md R29, 00_scope.md section 6). -/
def isProbe : Instr → Bool
  | .nop => false
  | .clear => false
  | .compose => false
  | .convert => false
  | .frame => false
  | .unpack _ _ _ => true
  | .lut _ => true
  | .resample _ _ => true
  | .expand _ => true

/-- It is the block's turn: no outside turn waits, or the one that waits is `pass`. -/
def State.blockMoves (s : State) : Prop := s.inbox = [] ∨ ∃ rest, s.inbox = .pass :: rest

/-- The number whose bytes are `f 0` to `f (n - 1)`, the lowest first: the sum of 20_memory.md R52. -/
def littleEndian (f : Nat → Byte) : Nat → Nat
  | 0 => 0
  | n + 1 => littleEndian f n + (f n).toNat * 256 ^ n

/-- The little-endian word `v` stands in the four bytes from `a`, as 20_memory.md R52 lays it out. -/
def HoldsWord (m : Memory 8) (a : Nat) (v : Word) : Prop :=
  ∀ i, i < 4 → m.get (a + i) = some (BitVec.ofNat 8 (v.toNat / 256 ^ i))

end Sys2Proof.Machine
end

