-- ==== Sys2Proof/Certificates/Slice0/Obligations.lean ====
section
/-!
DEFINITION. The statements for the provers, each a rule of spec/ or a sentence of it.
-/

open Sys2Proof Sys2Proof.Machine

/-! ## Encoding -/

/-- Words of 30_encoding.md R79 and 95_test_vectors.md V1 to V6, written out, decode to the commands they stand for. -/
def Obligations.SampleWordsDecode : Prop :=
  decode 0x00000000#32 = .command .nop ∧ decode 0x01000000#32 = .command .clear ∧
  decode 0x02FFFFFF#32 = .command .compose ∧ decode 0x03000000#32 = .command .convert ∧
  decode 0x04000000#32 = .command .frame ∧ decode 0x10003B01#32 = .command (.unpack 1 3 7) ∧
  decode 0x11000007#32 = .command (.lut 3) ∧ decode 0x120D70EF#32 = .command (.resample 239 215) ∧
  decode 0x1300001F#32 = .command (.expand 0x001F) ∧ decode 0x14000000#32 = .illegal 0x14

/-- 30_encoding.md R72, R73: no bit of an operand is lost between the encoder and the decoder. -/
def Obligations.EncodedCommandsDecode : Prop :=
  ∀ i : Instr, decode (encode i) = .command i

/-- 30_encoding.md R76, R78: a word decodes to a command exactly when it is that command's encoding with any reserved
bits set. -/
def Obligations.ReservedBitsAreIgnored : Prop :=
  ∀ (w : Word) (i : Instr), decode w = .command i ↔ ∃ m : Word, w = encode i ||| (m &&& i.reservedMask)

/-- 30_encoding.md R75, R78: decoding is total, and the illegal words are those with a reserved opcode. -/
def Obligations.ReservedOpcodesAreIllegal : Prop :=
  ∀ w : Word,
    let op := w.toNat / 2 ^ 24
    ((0x05 ≤ op ∧ op ≤ 0x0F ∨ 0x14 ≤ op) → decode w = .illegal (BitVec.ofNat 8 op)) ∧
    (¬ (0x05 ≤ op ∧ op ≤ 0x0F ∨ 0x14 ≤ op) → ∃ i, decode w = .command i)

/-- 30_encoding.md R79: a line whose operands fit assembles, by the rule's sums, to a word that decodes to the line's
command; a line with an operand that does not fit is an assembly error. -/
def Obligations.AssembledLinesDecode : Prop :=
  ∀ l : CommandLine,
    (l.wellFormed = true → ∃ w, l.assemble = some w ∧ w = encode l.toInstr ∧ decode w = .command l.toInstr) ∧
    (l.wellFormed = false → l.assemble = none)

/-! ## Configuration and the form of a step -/

/-- 00_scope.md R9 (and the multiple of 0x10000 that 20_memory.md R50 asks of BLOCK_BASE, log 22): a configuration that
breaks one condition is refused before any step, and one that breaks none is not refused so. -/
def Obligations.InvalidConfigurationsAreRefused : Prop :=
  ∀ s : State,
    let c := s.cfg
    let good := 1 ≤ c.w ∧ c.w ≤ 256 ∧ 1 ≤ c.h ∧ c.h ≤ 256 ∧ 1 ≤ c.wo ∧ c.wo ≤ 4096 ∧ 1 ≤ c.ho ∧ c.ho ≤ 4096 ∧
      c.ubase + 256 * 16 ≤ c.vramSize ∧ 128 * 16 ≤ c.sbase ∧ c.sbase + 128 * 16 ≤ c.vramSize ∧
      c.map0 + 1024 ≤ c.vramSize ∧ c.map1 + 1024 ≤ c.vramSize ∧ c.vramSize ≤ 0x2000 ∧ c.wo ≤ c.outStride ∧
      c.rowOffset + c.ho ≤ c.outRows ∧ c.outBase % 4 = 0 ∧ c.blockBase % 0x10000 = 0
    (¬ good → step s = .refused .invalidConfig) ∧ (good → step s ≠ .refused .invalidConfig)

/-- 70_reset_and_hazards.md R228: when it is the block's turn, a running word that decodes to `i` is performed as `i`;
the only thing the step adds is that the turn is used up. -/
def Obligations.StepPerformsTheRunningCommand : Prop :=
  ∀ (s : State) (word : Word) (i : Instr), validConfig s.cfg = true → s.seq = .running word →
    decode word = .command i →
    (s.inbox = [] → step s = exec i s) ∧
    (∀ rest, s.inbox = .pass :: rest → step s = exec i { s with inbox := rest })

/-- 60_exceptions.md R211: an idle block keeps every register and memory. -/
def Obligations.IdleBlockKeepsEverything : Prop :=
  ∀ s : State, validConfig s.cfg = true → s.seq = .idle →
    (s.inbox = [] → step s = .next s) ∧
    (∀ rest, s.inbox = .pass :: rest → step s = .next { s with inbox := rest })

/-- An opcode-table word placed for the machine is accepted with the latches of 30_encoding.md R70, and the next step
performs it (the placing is the model's own, log 10). -/
def Obligations.PlacedWordRuns : Prop :=
  ∀ (s : State) (nbits w : Nat) (i : Instr), validConfig s.cfg = true → decodeTableWord nbits w = some i →
    step (s.withFetchWord nbits w) =
      exec i { s with lCtrl := s.ctrl, lScroll := s.scroll, seq := .running (BitVec.ofNat 32 (w % 2 ^ nbits)) }

/-! ## Issue and errors -/

/-- 30_encoding.md R70, the accepting branch: an idle block latches CTRL and SCROLL and runs the word. -/
def Obligations.CommandIsAccepted : Prop :=
  ∀ (s : State) (word : Word) (i : Instr) (rest : List Turn), validConfig s.cfg = true → s.seq = .idle →
    decode word = .command i → s.inbox = wr32 s.cfg .cmd word :: rest →
    step s = .next { s with inbox := rest, lCtrl := s.ctrl, lScroll := s.scroll, seq := .running word }

/-- 60_exceptions.md R201, the raising: a reserved opcode written to an idle block sets ILL and changes no other
state. -/
def Obligations.ReservedOpcodeRaisesIll : Prop :=
  ∀ (s : State) (word : Word) (rest : List Turn), validConfig s.cfg = true → s.seq = .idle →
    (0x05 ≤ word.toNat / 2 ^ 24 ∧ word.toNat / 2 ^ 24 ≤ 0x0F ∨ 0x14 ≤ word.toNat / 2 ^ 24) →
    s.inbox = wr32 s.cfg .cmd word :: rest →
    step s = .next { s with inbox := rest, ill := true }

/-- 60_exceptions.md R202, R203, the raising: any word written while a command runs sets OVR, not ILL, and is dropped. -/
def Obligations.BusyWriteRaisesOvr : Prop :=
  ∀ (s : State) (running word : Word) (rest : List Turn), validConfig s.cfg = true → s.seq = .running running →
    s.inbox = wr32 s.cfg .cmd word :: rest →
    step s = .next { s with inbox := rest, ovr := true }

/-- 60_exceptions.md R200 to R203, 10_state.md R27, over every step: ILL and OVR rise only by the CMD write of their
rule, and fall only by a STATUS write that names them or by reset. -/
def Obligations.ErrorBitsAreSticky : Prop :=
  ∀ s t : State, step s = .next t →
    (s.ill = true → t.ill = false →
      (∃ rest, s.inbox = .reset :: rest) ∨ ∃ v rest, s.inbox = wr32 s.cfg .status v :: rest ∧ v.getLsbD 8 = true) ∧
    (s.ovr = true → t.ovr = false →
      (∃ rest, s.inbox = .reset :: rest) ∨ ∃ v rest, s.inbox = wr32 s.cfg .status v :: rest ∧ v.getLsbD 9 = true) ∧
    (s.ill = false → t.ill = true →
      s.seq = .idle ∧ ∃ word op rest, s.inbox = wr32 s.cfg .cmd word :: rest ∧ decode word = .illegal op) ∧
    (s.ovr = false → t.ovr = true →
      (∃ running, s.seq = .running running) ∧ ∃ word rest, s.inbox = wr32 s.cfg .cmd word :: rest)

/-! ## Registers -/

/-- 10_state.md R28: what a host write to STATUS does, and all it does. -/
def Obligations.StatusWriteClears : Prop :=
  ∀ (s : State) (v : Word) (rest : List Turn), validConfig s.cfg = true →
    s.inbox = wr32 s.cfg .status v :: rest →
    step s = .next { s with
      inbox := rest,
      ill := if v.getLsbD 8 = true then false else s.ill,
      ovr := if v.getLsbD 9 = true then false else s.ovr }

/-- 10_state.md R23, R24, R25: a write to CTRL or SCROLL sets the fields and no reserved bit, whether or not a command
runs, and changes nothing else. -/
def Obligations.ModeWritesSetTheirFields : Prop :=
  ∀ (s : State) (v : Word) (rest : List Turn), validConfig s.cfg = true →
    (s.inbox = wr32 s.cfg .ctrl v :: rest →
      ∃ t, step s = .next t ∧ t = { s with inbox := rest, ctrl := t.ctrl } ∧
        ∀ i, t.ctrl.getLsbD i = (decide (i = 0 ∨ i = 1 ∨ i = 2 ∨ i = 4 ∨ i = 5) && v.getLsbD i)) ∧
    (s.inbox = wr32 s.cfg .scroll v :: rest →
      ∃ t, step s = .next t ∧ t = { s with inbox := rest, scroll := t.scroll } ∧
        t.scroll.toNat = v.toNat % 2 ^ 16)

/-- 10_state.md R30: a PAL register reads its palette entry, and a write to it is ignored. -/
def Obligations.PaletteRegistersAreReadOnly : Prop :=
  ∀ (s : State) (r : HostRegister) (entry v : Word) (rest : List Turn), validConfig s.cfg = true →
    (r = .pal0 ∧ entry = s.cfg.palette.entry0 ∨ r = .pal1 ∧ entry = s.cfg.palette.entry1 ∨
      r = .pal2 ∧ entry = s.cfg.palette.entry2 ∨ r = .pal3 ∧ entry = s.cfg.palette.entry3) →
    (s.inbox = rd32 s.cfg r :: rest → step s = .next { s with inbox := rest, answer := some entry }) ∧
    (s.inbox = wr32 s.cfg r v :: rest → step s = .next { s with inbox := rest })

/-- 10_state.md R31: an offset of the register window that R22 does not list reads 0 and ignores writes. -/
def Obligations.UnlistedRegistersReadZero : Prop :=
  ∀ (s : State) (off : Nat) (v : Word) (rest : List Turn), validConfig s.cfg = true → off < 0x1000 → off % 4 = 0 →
    off ∉ [0x00, 0x04, 0x08, 0x0C, 0x10, 0x20, 0x24, 0x28, 0x2C] →
    (s.inbox = .read (s.cfg.blockBase + off) .w32 :: rest →
      step s = .next { s with inbox := rest, answer := some 0#32 }) ∧
    (s.inbox = .write (s.cfg.blockBase + off) .w32 v :: rest → step s = .next { s with inbox := rest })

/-- 10_state.md R22, R26, R27, R29, R32: what CTRL, SCROLL, CMD, STATUS and RESULT read, BUSY exactly while a command
runs; and RESULT ignores writes. -/
def Obligations.RegistersReadTheirValues : Prop :=
  ∀ (s : State) (rest : List Turn), validConfig s.cfg = true →
    (s.inbox = rd32 s.cfg .ctrl :: rest → step s = .next { s with inbox := rest, answer := some s.ctrl }) ∧
    (s.inbox = rd32 s.cfg .scroll :: rest → step s = .next { s with inbox := rest, answer := some s.scroll }) ∧
    (s.inbox = rd32 s.cfg .cmd :: rest → step s = .next { s with inbox := rest, answer := some 0#32 }) ∧
    (s.inbox = rd32 s.cfg .result :: rest → step s = .next { s with inbox := rest, answer := some s.result }) ∧
    (s.inbox = rd32 s.cfg .status :: rest → ∃ v : Word,
      step s = .next { s with inbox := rest, answer := some v } ∧
      v.toNat = (if s.seq = .idle then 0 else 1) + (if s.ill = true then 256 else 0) +
        (if s.ovr = true then 512 else 0)) ∧
    (∀ v, s.inbox = wr32 s.cfg .result v :: rest → step s = .next { s with inbox := rest })

/-- 20_memory.md R57, R58 (93_implementation_defined.md U9): a register access that is not an aligned 32-bit access and
a misaligned access to VRAM, CSB or IFB are refused, reads and writes alike. -/
def Obligations.BadAccessesAreRefused : Prop :=
  ∀ (s : State) (off : Nat) (width : Width) (v : Word) (rest : List Turn), validConfig s.cfg = true →
    (s.inbox = .read (s.cfg.blockBase + off) width :: rest ∨
      s.inbox = .write (s.cfg.blockBase + off) width v :: rest) →
    (off < 0x1000 → ¬ (width = .w32 ∧ off % 4 = 0) → step s = .refused .badRegisterAccess) ∧
    ((0x2000 ≤ off ∧ off < 0x4000 ∨ 0x20000 ≤ off ∧ off < 0x50000) → off % width.bytes ≠ 0 →
      step s = .refused .misalignedAccess)

/-! ## Memory windows -/

/-- 20_memory.md R52, R53, R58: an aligned host write at a VRAM byte stores its bytes little-endian and nothing else; it
holds whenever no command that reads VRAM runs. Bytes past VRAM_SIZE are ignored (R50, log 28). -/
def Obligations.VramWritesStoreLittleEndian : Prop :=
  ∀ (s : State) (a : Nat) (width : Width) (v : Word) (rest : List Turn), validConfig s.cfg = true →
    s.inbox = .write (s.cfg.blockBase + 0x2000 + a) width v :: rest →
    a < s.cfg.vramSize → a % width.bytes = 0 → s.runs readsVram = false →
    ∃ t, step s = .next t ∧ t = { s with inbox := rest, vram := t.vram } ∧
      (∀ i, i < width.bytes → a + i < s.cfg.vramSize →
        t.vram.get (a + i) = some (BitVec.ofNat 8 (v.toNat / 256 ^ i))) ∧
      (∀ b, b < a ∨ a + width.bytes ≤ b ∨ s.cfg.vramSize ≤ b → t.vram.get b = s.vram.get b)

/-- 20_memory.md R52, R53, R58: an aligned host read at a VRAM byte returns the little-endian composition of its bytes:
a written byte as it stands, any byte where VRAM is unwritten (10_state.md R40), 0 past VRAM_SIZE (R50, log 28). -/
def Obligations.VramReadsComposeLittleEndian : Prop :=
  ∀ (s : State) (a : Nat) (width : Width) (rest : List Turn), validConfig s.cfg = true →
    s.inbox = .read (s.cfg.blockBase + 0x2000 + a) width :: rest → a < s.cfg.vramSize → a % width.bytes = 0 →
    ∃ (t : State) (v : Word) (f : Nat → Byte), step s = .next t ∧
      t = { s with inbox := rest, answer := some v, draws := t.draws } ∧ v.toNat = littleEndian f width.bytes ∧
      ∀ i, i < width.bytes →
        (a + i < s.cfg.vramSize → ∀ b, s.vram.get (a + i) = some b → f i = b) ∧ (s.cfg.vramSize ≤ a + i → f i = 0)

/-- 20_memory.md R52, R55, R58: the CSB is read and written little-endian by aligned accesses of every width. A write,
when no command that reads the CSB runs, stores its bytes and nothing else; the 16-bit write at a sample's offset sets
that sample and no other. A read returns the composition of its bytes, a written byte as it stands and any byte where
the CSB is unwritten (10_state.md R40). Bytes past the last sample are ignored and read 0 (R50, log 28). -/
def Obligations.CsbReadsAndWritesAreLittleEndian : Prop :=
  ∀ (s : State) (rest : List Turn), validConfig s.cfg = true →
    let size := 2 * (s.cfg.w * s.cfg.h)
    (∀ a width v, s.inbox = .write (s.cfg.blockBase + 0x20000 + a) width v :: rest → a < size →
      a % width.bytes = 0 → s.runs (readsCsb s.cmode) = false →
      ∃ t, step s = .next t ∧ t = { s with inbox := rest, csb := t.csb } ∧
        (∀ i, i < width.bytes → a + i < size → t.csb.get (a + i) = some (BitVec.ofNat 8 (v.toNat / 256 ^ i))) ∧
        (∀ b, b < a ∨ a + width.bytes ≤ b ∨ size ≤ b → t.csb.get b = s.csb.get b)) ∧
    (∀ (x y : Nat) (v : Half), s.inbox = wr16Csb s.cfg x y v :: rest → x < s.cfg.w → y < s.cfg.h →
      s.runs (readsCsb s.cmode) = false →
      ∃ t, step s = .next t ∧ t = { s with inbox := rest, csb := t.csb } ∧
        (∀ k, t.csbSample x y k = v) ∧
        (∀ x' y' k, x' < s.cfg.w → y' < s.cfg.h → (x', y') ≠ (x, y) → t.csbSample x' y' k = s.csbSample x' y' k)) ∧
    (∀ a width, s.inbox = .read (s.cfg.blockBase + 0x20000 + a) width :: rest → a < size → a % width.bytes = 0 →
      ∃ (t : State) (v : Word) (f : Nat → Byte), step s = .next t ∧
        t = { s with inbox := rest, answer := some v, draws := t.draws } ∧ v.toNat = littleEndian f width.bytes ∧
        ∀ i, i < width.bytes →
          (a + i < size → ∀ b, s.csb.get (a + i) = some b → f i = b) ∧ (size ≤ a + i → f i = 0))

/-- 20_memory.md R54, R58 and R64 item 2: the host reads an IFB cell zero-extended, and an aligned wide read is the
little-endian composition of its cells; a cell reads its own value when no command that writes the IFB runs, else some
2-bit value, and past the last cell 0 (R50, log 28). An aligned host write to the IFB range is ignored. -/
def Obligations.IfbWindowIsReadOnly : Prop :=
  ∀ (s : State) (rest : List Turn), validConfig s.cfg = true →
    (∀ x y, s.inbox = rd8Ifb s.cfg x y :: rest → x < s.cfg.w → y < s.cfg.h →
      ∃ (t : State) (p : Pixel), step s = .next t ∧
        t = { s with inbox := rest, answer := some (p.setWidth 32), draws := t.draws } ∧
        (s.runs writesIfb = false → ∀ q, s.ifb.get (y * s.cfg.w + x) = some q → p = q)) ∧
    (∀ a width, s.inbox = .read (s.cfg.blockBase + 0x40000 + a) width :: rest → a < s.cfg.w * s.cfg.h →
      a % width.bytes = 0 →
      ∃ (t : State) (v : Word) (f : Nat → Byte), step s = .next t ∧
        t = { s with inbox := rest, answer := some v, draws := t.draws } ∧ v.toNat = littleEndian f width.bytes ∧
        ∀ i, i < width.bytes →
          (a + i < s.cfg.w * s.cfg.h → ∃ p : Pixel, f i = p.setWidth 8 ∧
            (s.runs writesIfb = false → ∀ q, s.ifb.get (a + i) = some q → p = q)) ∧
          (s.cfg.w * s.cfg.h ≤ a + i → f i = 0)) ∧
    (∀ off width v, 0x40000 ≤ off → off < 0x50000 → off % width.bytes = 0 →
      s.inbox = .write (s.cfg.blockBase + off) width v :: rest → step s = .next { s with inbox := rest })

/-- 20_memory.md R50: an access of any width whose every byte lies where the configuration puts nothing reads 0 and is
ignored as a write. It may be misaligned where every byte lies in the unmapped ranges (log 15); in the ranges of VRAM,
CSB and IFB it is aligned (R58). -/
def Obligations.UnmappedOffsetsReadZero : Prop :=
  ∀ (s : State) (off : Nat) (width : Width) (rest : List Turn), validConfig s.cfg = true →
    let gap := fun o => 0x1000 ≤ o ∧ o < 0x2000 ∨ 0x4000 ≤ o ∧ o < 0x20000
    let beyond := fun o => 0x2000 + s.cfg.vramSize ≤ o ∧ o < 0x4000 ∨
      0x20000 + 2 * (s.cfg.w * s.cfg.h) ≤ o ∧ o < 0x40000 ∨ 0x40000 + s.cfg.w * s.cfg.h ≤ o ∧ o < 0x50000
    (∀ i, i < width.bytes → gap (off + i) ∨ beyond (off + i)) →
    (off % width.bytes = 0 ∨ ∀ i, i < width.bytes → gap (off + i)) →
    (s.inbox = .read (s.cfg.blockBase + off) width :: rest →
      ∃ t, step s = .next t ∧ t = { s with inbox := rest, answer := some 0#32, draws := t.draws }) ∧
    (∀ v, s.inbox = .write (s.cfg.blockBase + off) width v :: rest → step s = .next { s with inbox := rest })

/-- 20_memory.md R64 item 1, 70_reset_and_hazards.md R229: an aligned host write of any width that covers a byte of VRAM
while COMPOSE, FRAME or UNPACK runs, or a byte of the CSB while CONVERT or FRAME runs in colour mode, is a race, and the
model faults on it. -/
def Obligations.RacingWritesFault : Prop :=
  ∀ (s : State) (word : Word) (i : Instr) (a : Nat) (width : Width) (v : Word) (rest : List Turn),
    validConfig s.cfg = true → s.seq = .running word → decode word = .command i → a % width.bytes = 0 →
    ((i = .compose ∨ i = .frame ∨ ∃ idx row col, i = .unpack idx row col) →
      (∃ j, j < width.bytes ∧ a + j < s.cfg.vramSize) →
      s.inbox = .write (s.cfg.blockBase + 0x2000 + a) width v :: rest → step s = .fault .vramRace) ∧
    ((i = .convert ∨ i = .frame) → s.lCtrl.getLsbD 2 = true →
      (∃ j, j < width.bytes ∧ a + j < 2 * (s.cfg.w * s.cfg.h)) →
      s.inbox = .write (s.cfg.blockBase + 0x20000 + a) width v :: rest → step s = .fault .csbRace)

/-- 20_memory.md R61: a read, of the window or of OUT, changes nothing of the block. -/
def Obligations.ReadsHaveNoSideEffect : Prop :=
  ∀ (s t : State) (rest : List Turn),
    ((∃ addr width, s.inbox = .read addr width :: rest) ∨ ∃ addr, s.inbox = .outRead addr :: rest) →
    step s = .next t → t = { s with inbox := rest, answer := t.answer, draws := t.draws }

/-! ## OUT from outside -/

/-- 20_memory.md R61, R64 item 3: while CONVERT or FRAME runs, a read of an OUT word returns the word before the command
or the word after it. While neither runs it returns the word that stands there, `v` where `v` has been written, and
every later read of it, while neither runs and OUT is as it was, returns the same word, also where nothing has written
it (log 30). -/
def Obligations.OutReadsSeeOldOrNew : Prop :=
  ∀ (s : State) (col row : Nat) (rest : List Turn), validConfig s.cfg = true →
    col < s.cfg.outStride → row < s.cfg.outRows → s.inbox = .outRead (outAddr s.cfg col row) :: rest →
    (∀ word i, s.seq = .running word → decode word = .command i → (i = .convert ∨ i = .frame) →
      ∃ t n u, step s = .next t ∧ exec i (({ s with inbox := rest } : State).useDraws n) = .next u ∧
        (t.answer = some (s.out.outWord (outAddr s.cfg col row)) ∨
          t.answer = some (u.out.outWord (outAddr s.cfg col row)))) ∧
    (s.runs writesOut = false → ∃ w : Word, step s = .next { s with inbox := rest, answer := some w } ∧
      (∀ v, HoldsWord s.out (outAddr s.cfg col row) v → w = v) ∧
      ∀ (later : State) (more : List Turn), later.cfg = s.cfg → later.out = s.out → later.runs writesOut = false →
        later.inbox = .outRead (outAddr s.cfg col row) :: more →
        step later = .next { later with inbox := more, answer := some w })

/-- 20_memory.md R52, R56 (the outside writer is that of 95_test_vectors.md T4 and T7): an outside write to an OUT word
while neither CONVERT nor FRAME runs stores its four bytes little-endian and nothing else. -/
def Obligations.OutsideWritesStoreOutWords : Prop :=
  ∀ (s : State) (col row : Nat) (v : Word) (rest : List Turn), validConfig s.cfg = true →
    col < s.cfg.outStride → row < s.cfg.outRows → s.runs writesOut = false →
    s.inbox = .outWrite (outAddr s.cfg col row) v :: rest →
    ∃ t, step s = .next t ∧ t = { s with inbox := rest, out := t.out } ∧
      HoldsWord t.out (outAddr s.cfg col row) v ∧
      (∀ b, b < outAddr s.cfg col row ∨ outAddr s.cfg col row + 4 ≤ b → t.out.get b = s.out.get b)

/-! ## The tile bitmap unpacker -/

/-- 40_tile_bitmap_unpacker.md R100: low plane gives bit 0, high plane bit 1, bit 7 is column 0. -/
def Obligations.UnpackTakesOneBitOfEachPlane : Prop :=
  ∀ (lo hi : Byte) (x : Nat), x ≤ 7 →
    (unpack2 lo hi x).toNat = 2 * (hi.toNat / 2 ^ (7 - x) % 2) + lo.toNat / 2 ^ (7 - x) % 2

/-- 40_tile_bitmap_unpacker.md R103 and 41_tile_compositor_with_scroll.md R120: for a valid configuration every tile
read lies in the active mode's tile region, and every tile and map read lies in VRAM. -/
def Obligations.TileReadsStayInTheirRegion : Prop :=
  ∀ (c : Config) (idx : Byte) (tds : Bool) (y : Nat), validConfig c = true → y ≤ 7 →
    (tds = true → c.ubase ≤ tileAddr c idx tds + 2 * y ∧ tileAddr c idx tds + 2 * y + 1 < c.ubase + 4096) ∧
    (tds = false → c.sbase ≤ tileAddr c idx tds + 2 * y + 2048 ∧
      tileAddr c idx tds + 2 * y + 1 < c.sbase + 2048) ∧
    tileAddr c idx tds + 2 * y + 1 < c.vramSize ∧
    (∀ tiley tilex, tiley ≤ 31 → tilex ≤ 31 →
      c.map0 + 32 * tiley + tilex < c.vramSize ∧ c.map1 + 32 * tiley + tilex < c.vramSize)

/-- 40_tile_bitmap_unpacker.md R105: UNPACK, opcode 0x10 of format U with bits 23:14 ignored, completes with the
low-plane byte address, which lies in VRAM, in RESULT bits 31:16, the pixel in bits 1:0, and nothing else changed; where
a byte is unwritten only the pixel is open. -/
def Obligations.UnpackReturnsAddressAndPixel : Prop :=
  ∀ (s : State) (idx : BitVec 8) (row col : BitVec 3), validConfig s.cfg = true →
    (∀ n : Nat, n < 1024 →
      decode (BitVec.ofNat 32 (0x10000000 + 16384 * n + 2048 * col.toNat + 256 * row.toNat + idx.toNat)) =
        .command (.unpack idx row col)) ∧
    ∃ (t : State) (a p : Nat), exec (.unpack idx row col) s = .next t ∧ a + 1 < s.cfg.vramSize ∧
      t = { s with result := t.result, seq := .idle, draws := t.draws } ∧
      (a : Int) = (if s.lCtrl.getLsbD 0 = true then (s.cfg.ubase : Int) + 16 * idx.toNat
        else (s.cfg.sbase : Int) + 16 * idx.toInt) + 2 * row.toNat ∧
      p < 4 ∧ t.result.toNat = a * 2 ^ 16 + p ∧
      (∀ lo hi, s.vram.get a = some lo → s.vram.get (a + 1) = some hi →
        p = 2 * (hi.toNat / 2 ^ (7 - col.toNat) % 2) + lo.toNat / 2 ^ (7 - col.toNat) % 2)

/-! ## The tile compositor -/

/-- 41_tile_compositor_with_scroll.md R127: CLEAR completes with BGIDX in every IFB cell and nothing else changed. -/
def Obligations.ClearFillsTheIfb : Prop :=
  ∀ s : State, ∃ t, exec .clear s = .next t ∧ t = { s with ifb := t.ifb, seq := .idle } ∧
    (∀ x y, x < s.cfg.w → y < s.cfg.h → t.ifb.get (y * s.cfg.w + x) = some (s.lCtrl.extractLsb' 4 2)) ∧
    (∀ a, s.cfg.w * s.cfg.h ≤ a → t.ifb.get a = s.ifb.get a)

/-- 41_tile_compositor_with_scroll.md R124 to R126: COMPOSE completes with every IFB cell written, a cell whose map byte
and tile bytes are written showing the pixel of the closed form, and nothing but the IFB changed. -/
def Obligations.ComposeShowsTheScrolledCanvas : Prop :=
  ∀ s : State, ∃ t, exec .compose s = .next t ∧ t = { s with ifb := t.ifb, seq := .idle, draws := t.draws } ∧
    (∀ sx sy, sx < s.cfg.w → sy < s.cfg.h →
      let cx := (sx + (s.lScroll.extractLsb' 0 8).toNat) % 256
      let cy := (sy + (s.lScroll.extractLsb' 8 8).toNat) % 256
      let mapBase := if s.lCtrl.getLsbD 1 = true then s.cfg.map1 else s.cfg.map0
      Written t.ifb (sy * s.cfg.w + sx) ∧
      (∀ idx lo hi, s.vram.get (mapBase + 32 * (cy / 8) + cx / 8) = some idx →
        s.vram.get (tileAddr s.cfg idx (s.lCtrl.getLsbD 0) + 2 * (cy % 8)) = some lo →
        s.vram.get (tileAddr s.cfg idx (s.lCtrl.getLsbD 0) + 2 * (cy % 8) + 1) = some hi →
        t.ifb.get (sy * s.cfg.w + sx) = some (unpack2 lo hi (cx % 8)))) ∧
    (∀ a, s.cfg.w * s.cfg.h ≤ a → t.ifb.get a = s.ifb.get a)

/-- 41_tile_compositor_with_scroll.md R121 to R125: the loop of COMPOSE's pseudocode, one clipped write at a time, leaves
the IFB that COMPOSE leaves. -/
def Obligations.ComposeIsItsLoop : Prop :=
  ∀ s t : State, validConfig s.cfg = true → s.ifb.wf → exec .compose s = .next t → t.ifb = s.composeLoop

/-- 41_tile_compositor_with_scroll.md R127: the loop of CLEAR's pseudocode leaves the IFB that CLEAR leaves. -/
def Obligations.ClearIsItsLoop : Prop :=
  ∀ s t : State, s.ifb.wf → exec .clear s = .next t → t.ifb = s.clearLoop

/-- 41_tile_compositor_with_scroll.md R126, R127: CLEAR followed by COMPOSE leaves the IFB that COMPOSE alone leaves. -/
def Obligations.ClearBeforeComposeIsUnseen : Prop :=
  ∀ s t u v : State, s.ifb.wf → exec .clear s = .next t → exec .compose t = .next u → exec .compose s = .next v →
    u.ifb = v.ifb

/-! ## Palette, expansion, resampling -/

/-- 42_color_palette_lut.md R142: LUT completes with the palette entry in RESULT and nothing else changed; reserved bits
23:2 of the word are ignored. -/
def Obligations.LutReturnsThePaletteEntry : Prop :=
  ∀ (s : State) (pix : BitVec 2),
    (∃ v, exec (.lut pix) s = .next { s with result := v, seq := .idle } ∧
      (pix.toNat = 0 → v = s.cfg.palette.entry0) ∧ (pix.toNat = 1 → v = s.cfg.palette.entry1) ∧
      (pix.toNat = 2 → v = s.cfg.palette.entry2) ∧ (pix.toNat = 3 → v = s.cfg.palette.entry3)) ∧
    (∀ n : Nat, n < 2 ^ 22 → decode (BitVec.ofNat 32 (0x11000000 + 4 * n + pix.toNat)) = .command (.lut pix))

/-- 44_bit_expand_rgb.md R170 to R174: EXPAND completes with the packed channels in RESULT, each 5-bit field times 8 and
alpha 0xFF, in the order of OUT_PACK, and nothing else changed; sample bit 15 and the reserved bits of the word are
ignored. -/
def Obligations.ExpandPacksWidenedChannels : Prop :=
  ∀ (s : State) (sample : BitVec 16),
    let r := sample.toNat % 32 * 8
    let g := sample.toNat / 32 % 32 * 8
    let b := sample.toNat / 1024 % 32 * 8
    (∃ v, exec (.expand sample) s = .next { s with result := v, seq := .idle } ∧
      v.toNat = match s.cfg.outPack with
        | .rgba8888 => r * 2 ^ 24 + g * 2 ^ 16 + b * 2 ^ 8 + 255
        | .argb8888 => 255 * 2 ^ 24 + r * 2 ^ 16 + g * 2 ^ 8 + b
        | .abgr8888 => 255 * 2 ^ 24 + b * 2 ^ 16 + g * 2 ^ 8 + r
        | .bgra8888 => b * 2 ^ 24 + g * 2 ^ 16 + r * 2 ^ 8 + 255) ∧
    (∀ n : Nat, n < 256 →
      decode (BitVec.ofNat 32 (0x13000000 + 65536 * n + sample.toNat)) = .command (.expand sample))

/-- 43_nearest_neighbor_resampler.md R155: RESAMPLE, opcode 0x12 of format S, completes with both source coordinates,
each reduced mod 2^16, in RESULT and nothing else changed, also outside the output. -/
def Obligations.ResampleReturnsTheSource : Prop :=
  ∀ (s : State) (xo yo : BitVec 12),
    (∃ v, exec (.resample xo yo) s = .next { s with result := v, seq := .idle } ∧
      v.toNat = (yo.toNat * s.cfg.h / s.cfg.ho) % 2 ^ 16 * 2 ^ 16 + (xo.toNat * s.cfg.w / s.cfg.wo) % 2 ^ 16) ∧
    decode (BitVec.ofNat 32 (0x12000000 + 4096 * yo.toNat + xo.toNat)) = .command (.resample xo yo)

/-- 43_nearest_neighbor_resampler.md R151: source coordinates are in bounds, non-decreasing, 0 at 0, reused when the
output is larger than the source and skipping when it is smaller. -/
def Obligations.SourceCoordinatesStayInside : Prop :=
  ∀ c : Config, validConfig c = true →
    (∀ xo, xo < c.wo → sourceX c xo < c.w) ∧ (∀ yo, yo < c.ho → sourceY c yo < c.h) ∧
    (∀ a b, a ≤ b → sourceX c a ≤ sourceX c b ∧ sourceY c a ≤ sourceY c b) ∧
    sourceX c 0 = 0 ∧ sourceY c 0 = 0 ∧
    (c.w < c.wo → ∃ a b, a < b ∧ b < c.wo ∧ sourceX c a = sourceX c b) ∧
    (c.wo < c.w → ∃ xs, xs < c.w ∧ ∀ xo, xo < c.wo → sourceX c xo ≠ xs)

/-- 43_nearest_neighbor_resampler.md R152: the placement of output rows is the rule's formula, and a bijection onto the
rows from ROW_OFFSET that stays inside OUT. -/
def Obligations.RowPlacementIsABijection : Prop :=
  ∀ c : Config, validConfig c = true →
    (∀ yo, yo < c.ho → placeRow c yo = (if c.rowFlip = true then c.rowOffset + (c.ho - 1 - yo) else c.rowOffset + yo) ∧
      c.rowOffset ≤ placeRow c yo ∧ placeRow c yo < c.rowOffset + c.ho ∧ placeRow c yo < c.outRows) ∧
    (∀ a b, a < c.ho → b < c.ho → placeRow c a = placeRow c b → a = b) ∧
    (∀ row, c.rowOffset ≤ row → row < c.rowOffset + c.ho → ∃ yo, yo < c.ho ∧ placeRow c yo = row)

/-! ## CONVERT and FRAME -/

/-- 43_nearest_neighbor_resampler.md R153, R154, 41_tile_compositor_with_scroll.md R128, 70_reset_and_hazards.md R232:
CONVERT completes with every output word the colour of its source pixel, in monochrome the palette entry of the cell (of
some pixel value where the cell is unwritten), in colour the expanded sample; nothing but OUT changes. -/
def Obligations.ConvertColoursEveryOutputPixel : Prop :=
  ∀ s : State, validConfig s.cfg = true →
    ∃ t, exec .convert s = .next t ∧ t = { s with out := t.out, seq := .idle, draws := t.draws } ∧
      ∀ xo yo, xo < s.cfg.wo → yo < s.cfg.ho →
        let xs := xo * s.cfg.w / s.cfg.wo
        let ys := yo * s.cfg.h / s.cfg.ho
        let a := outAddr s.cfg xo (placeRow s.cfg yo)
        (s.lCtrl.getLsbD 2 = false → ∃ p : Pixel, HoldsWord t.out a (lutEntry s.cfg p) ∧
          ∀ q, s.ifb.get (ys * s.cfg.w + xs) = some q → p = q) ∧
        (s.lCtrl.getLsbD 2 = true → ∃ v : Half, HoldsWord t.out a (expandPixel s.cfg v) ∧
          ∀ lo hi, s.csb.get (2 * (ys * s.cfg.w + xs)) = some lo → s.csb.get (2 * (ys * s.cfg.w + xs) + 1) = some hi →
            v.toNat = hi.toNat * 256 + lo.toNat)

/-- 43_nearest_neighbor_resampler.md R156 (93_implementation_defined.md U15): CONVERT and FRAME change no byte outside the
words of the output pixels. -/
def Obligations.ConvertLeavesOtherOutBytes : Prop :=
  ∀ s t : State, validConfig s.cfg = true → (exec .convert s = .next t ∨ exec .frame s = .next t) →
    ∀ a, (∀ xo yo, xo < s.cfg.wo → yo < s.cfg.ho →
      a < outAddr s.cfg xo (placeRow s.cfg yo) ∨ outAddr s.cfg xo (placeRow s.cfg yo) + 4 ≤ a) →
    t.out.get a = s.out.get a

/-- 43_nearest_neighbor_resampler.md R153: the loop of CONVERT's pseudocode, one word write at a time, leaves the OUT
that CONVERT leaves. -/
def Obligations.ConvertIsItsLoop : Prop :=
  ∀ s t : State, validConfig s.cfg = true → s.out.wf → exec .convert s = .next t → t.out = s.convertLoop

/-- 45_sequencing.md R180: NOP, opcode 0x00 with every other bit ignored, completes with nothing changed; run from an idle
block it changes the two latches and nothing else; written to a running block it raises OVR. -/
def Obligations.NopOnlyLatches : Prop :=
  (∀ n : Nat, n < 2 ^ 24 → decode (BitVec.ofNat 32 n) = .command .nop) ∧
  ∀ s : State, exec .nop s = .next { s with seq := .idle } ∧
    (∀ rest, validConfig s.cfg = true → s.seq = .idle → s.inbox = issueLine s.cfg .nop :: .pass :: rest →
      Sys2Proof.core.run 2 s = .next { s with inbox := rest, lCtrl := s.ctrl, lScroll := s.scroll }) ∧
    (∀ running rest, validConfig s.cfg = true → s.seq = .running running → s.inbox = issueLine s.cfg .nop :: rest →
      step s = .next { s with inbox := rest, ovr := true })

/-- 45_sequencing.md R181: FRAME completes with the state COMPOSE and then CONVERT give, both from the same latches. -/
def Obligations.FrameIsComposeThenConvert : Prop :=
  ∀ s : State, ∃ t u, exec .compose s = .next t ∧ t.lCtrl = s.lCtrl ∧ t.lScroll = s.lScroll ∧
    exec .convert t = .next u ∧ exec .frame s = .next u

/-- 45_sequencing.md R181, over steps of the machine: issuing FRAME and letting it complete ends in the state of issuing
COMPOSE, letting it complete, issuing CONVERT and letting it complete. -/
def Obligations.FrameEqualsTwoRuns : Prop :=
  ∀ (s : State) (rest : List Turn), validConfig s.cfg = true → s.seq = .idle →
    let once := issueLine s.cfg .frame :: .pass :: rest
    let twice := issueLine s.cfg .compose :: .pass :: issueLine s.cfg .convert :: .pass :: rest
    ∃ t : State, Sys2Proof.core.run 2 { s with inbox := once } = .next t ∧
      Sys2Proof.core.run 4 { s with inbox := twice } = .next t

/-- 45_sequencing.md R181, 41_tile_compositor_with_scroll.md R125, 43_nearest_neighbor_resampler.md R150 to R154: after a
monochrome FRAME an output word whose map byte and tile bytes are written is the palette entry of that tile pixel. -/
def Obligations.FrameDrawsTheBackground : Prop :=
  ∀ s : State, validConfig s.cfg = true → s.lCtrl.getLsbD 2 = false →
    ∃ t, exec .frame s = .next t ∧
      t = { s with ifb := t.ifb, out := t.out, seq := .idle, draws := t.draws } ∧
      ∀ xo yo, xo < s.cfg.wo → yo < s.cfg.ho →
        let cx := (xo * s.cfg.w / s.cfg.wo + (s.lScroll.extractLsb' 0 8).toNat) % 256
        let cy := (yo * s.cfg.h / s.cfg.ho + (s.lScroll.extractLsb' 8 8).toNat) % 256
        let mapBase := if s.lCtrl.getLsbD 1 = true then s.cfg.map1 else s.cfg.map0
        ∀ idx lo hi, s.vram.get (mapBase + 32 * (cy / 8) + cx / 8) = some idx →
          s.vram.get (tileAddr s.cfg idx (s.lCtrl.getLsbD 0) + 2 * (cy % 8)) = some lo →
          s.vram.get (tileAddr s.cfg idx (s.lCtrl.getLsbD 0) + 2 * (cy % 8) + 1) = some hi →
          HoldsWord t.out (outAddr s.cfg xo (placeRow s.cfg yo)) (lutEntry s.cfg (unpack2 lo hi (cx % 8)))

/-- 45_sequencing.md R181 and 95_test_vectors.md T7: with the memories FRAME reads written, what it writes depends on
nothing else: two states that agree on its inputs get the same IFB cells and the same OUT words, whatever IFB and OUT
held. -/
def Obligations.FrameDependsOnlyOnItsInputs : Prop :=
  ∀ s s' t t' : State, validConfig s.cfg = true → s'.cfg = s.cfg → s'.lCtrl = s.lCtrl → s'.lScroll = s.lScroll →
    s'.vram = s.vram → s'.csb = s.csb → (∀ a, a < s.cfg.vramSize → Written s.vram a) →
    (s.lCtrl.getLsbD 2 = true → ∀ a, a < 2 * (s.cfg.w * s.cfg.h) → Written s.csb a) →
    exec .frame s = .next t → exec .frame s' = .next t' →
    (∀ x y, x < s.cfg.w → y < s.cfg.h → t'.ifb.get (y * s.cfg.w + x) = t.ifb.get (y * s.cfg.w + x)) ∧
    (∀ xo yo i, xo < s.cfg.wo → yo < s.cfg.ho → i < 4 →
      t'.out.get (outAddr s.cfg xo (placeRow s.cfg yo) + i) = t.out.get (outAddr s.cfg xo (placeRow s.cfg yo) + i))

/-! ## Over all commands -/

/-- 60_exceptions.md R200, 20_memory.md R51, 10_state.md R29, R33, R34: every command completes, without fault or
refusal; it leaves the configuration, the registers, the latches, the error bits, VRAM, the CSB and the model's inbox and
answer as they were; only CLEAR, COMPOSE and FRAME may change the IFB, only CONVERT and FRAME may change OUT, and only
the probes may change RESULT. -/
def Obligations.CommandFrame : Prop :=
  ∀ (i : Instr) (s : State), ∃ t, exec i s = .next t ∧
    t = { s with result := t.result, seq := .idle, ifb := t.ifb, out := t.out, draws := t.draws } ∧
    (isProbe i = false → t.result = s.result) ∧
    (i ≠ .clear → i ≠ .compose → i ≠ .frame → t.ifb = s.ifb) ∧
    (i ≠ .convert → i ≠ .frame → t.out = s.out)

/-- 10_state.md R33, 70_reset_and_hazards.md R231: a command does not see CTRL and SCROLL, so a write to them while it
runs changes nothing of its performance. -/
def Obligations.LatchesShieldTheCommand : Prop :=
  ∀ (i : Instr) (s t : State) (c d : Word), exec i s = .next t →
    exec i { s with ctrl := c, scroll := d } = .next { t with ctrl := c, scroll := d }

/-! ## Over all steps -/

/-- Reserved bits, canonical memories, bounds, a legal running word and a valid configuration: every step keeps them
(10_state.md R24, R32, R33, R35 to R38). -/
def Obligations.StepKeepsTheInvariant : Prop :=
  ∀ s t : State, s.Inv → step s = .next t → t.Inv

/-- The invariant holds after reset. -/
def Obligations.ResetMeetsTheInvariant : Prop := State.reset.Inv

/-- 00_scope.md R5, 10_state.md R34: no step changes the palette or any other parameter. -/
def Obligations.ConfigurationNeverChanges : Prop :=
  ∀ s t : State, step s = .next t → t.cfg = s.cfg

/-- 10_state.md R29, 70_reset_and_hazards.md R233: RESULT changes only when a probe completes, or by reset. -/
def Obligations.OnlyProbesChangeResult : Prop :=
  ∀ s t : State, step s = .next t → t.result ≠ s.result →
    (∃ rest, s.inbox = .reset :: rest) ∨
    s.blockMoves ∧ ∃ word i, s.seq = .running word ∧ decode word = .command i ∧ isProbe i = true

/-- 10_state.md R33, 30_encoding.md R70: the latches change only by reset, or when a command is accepted, and then to
CTRL and SCROLL. -/
def Obligations.LatchesLoadAtAcceptance : Prop :=
  ∀ s t : State, step s = .next t → t.lCtrl ≠ s.lCtrl ∨ t.lScroll ≠ s.lScroll →
    (∃ rest, s.inbox = .reset :: rest) ∨
    s.seq = .idle ∧ t.lCtrl = s.ctrl ∧ t.lScroll = s.scroll ∧
      ∃ word i rest, s.inbox = wr32 s.cfg .cmd word :: rest ∧ decode word = .command i ∧ t.seq = .running word

/-- 20_memory.md R51: VRAM and the CSB change only by host writes, the IFB only by CLEAR, COMPOSE and FRAME, OUT only by
CONVERT and FRAME or an outside write: when such a command is performed, or when reset stops it
(70_reset_and_hazards.md R221). -/
def Obligations.MemoriesHaveTheirWriters : Prop :=
  ∀ s t : State, step s = .next t →
    (t.vram ≠ s.vram → s.runs readsVram = false ∧ ∃ addr width v rest, s.inbox = .write addr width v :: rest) ∧
    (t.csb ≠ s.csb → s.runs (readsCsb s.cmode) = false ∧
      ∃ addr width v rest, s.inbox = .write addr width v :: rest) ∧
    (t.ifb ≠ s.ifb → s.runs writesIfb = true ∧ (s.blockMoves ∨ ∃ rest, s.inbox = .reset :: rest)) ∧
    (t.out ≠ s.out → (s.runs writesOut = true ∧ (s.blockMoves ∨ ∃ rest, s.inbox = .reset :: rest)) ∨
      s.runs writesOut = false ∧ ∃ addr v rest, s.inbox = .outWrite addr v :: rest)

/-! ## Reset -/

/-- 10_state.md R40, 70_reset_and_hazards.md R220, R221: reset of an idle block sets every register, latch and SEQ to its
reset value and leaves the palette and every memory. -/
def Obligations.ResetOfAnIdleBlock : Prop :=
  ∀ (s : State) (rest : List Turn), validConfig s.cfg = true → s.seq = .idle → s.inbox = .reset :: rest →
    step s = .next { s with
      inbox := rest, ctrl := 0#32, scroll := 0#32, ill := false, ovr := false, result := 0#32, lCtrl := 0#32,
      lScroll := 0#32, seq := .idle }

/-- 70_reset_and_hazards.md R220, R221 (93_implementation_defined.md U7): reset of a running block sets the registers the
same way, leaves VRAM and the CSB, and leaves each IFB cell and each OUT word its old value or the one the command would
have written. -/
def Obligations.ResetStopsACommand : Prop :=
  ∀ (s : State) (word : Word) (i : Instr) (rest : List Turn), s.Inv → s.seq = .running word →
    decode word = .command i → s.inbox = .reset :: rest →
    ∃ t n u, step s = .next t ∧ exec i (({ s with inbox := rest } : State).useDraws n) = .next u ∧
      t = { s with
        inbox := rest, ctrl := 0#32, scroll := 0#32, ill := false, ovr := false, result := 0#32, lCtrl := 0#32,
        lScroll := 0#32, seq := .idle, ifb := t.ifb, out := t.out, draws := t.draws } ∧
      (∀ a, t.ifb.get a = s.ifb.get a ∨ t.ifb.get a = u.ifb.get a) ∧
      (∀ col row, col < s.cfg.outStride → row < s.cfg.outRows →
        (∀ j, j < 4 → t.out.get (outAddr s.cfg col row + j) = s.out.get (outAddr s.cfg col row + j)) ∨
        (∀ j, j < 4 → t.out.get (outAddr s.cfg col row + j) = u.out.get (outAddr s.cfg col row + j)))

/-- 10_state.md R40, 70_reset_and_hazards.md R222: the registers of the machine after reset are 0, it is idle, and it
accepts the next CMD write of a command. (The default configuration and empty memories are the model's choice, logs 2, 3
and 5.) -/
def Obligations.ResetStateIsIdle : Prop :=
  State.reset.ctrl = 0#32 ∧ State.reset.scroll = 0#32 ∧ State.reset.status = 0#32 ∧ State.reset.result = 0#32 ∧
  State.reset.lCtrl = 0#32 ∧ State.reset.lScroll = 0#32 ∧ State.reset.seq = .idle ∧
  ∀ i : Instr, ∃ t, step { State.reset with inbox := [issueLine State.reset.cfg i] } = .next t ∧
    t.seq = .running (encode i)
end

