-- ==== Sys2Proof/Laws/Memory.lean ====
section
/-!
SUPPORT. The laws of memories: what a read finds after a write or a fill, that every operation keeps the canonical form
and the bounds, and that canonical memories with the same cells are the same list.
-/

namespace Sys2Proof.Machine

variable {w : Nat}

@[simp] theorem Memory.get_nil (a : Nat) : Memory.get ([] : Memory w) a = none := rfl

theorem Memory.get_cons (c : Nat × BitVec w) (m : Memory w) (a : Nat) :
    Memory.get (c :: m) a = if c.1 = a then some c.2 else Memory.get m a := rfl

/-- A read after a write: the value at the written address, every other address as before. -/
theorem Memory.get_set (m : Memory w) (a b : Nat) (v : BitVec w) :
    (Memory.set m a v).get b = if a = b then some v else m.get b := by
  induction m with
  | nil => simp [Memory.set, Memory.get_cons]
  | cons c m ih =>
    obtain ⟨x, u⟩ := c
    by_cases h1 : a < x
    · simp [Memory.set, h1, Memory.get_cons]
    · by_cases h2 : a = x
      · subst h2
        simp only [Memory.set, Nat.lt_irrefl, if_false, if_true, Memory.get_cons]
        split <;> rfl
      · simp only [Memory.set, h1, h2, if_false, Memory.get_cons, ih]
        by_cases h3 : x = b
        · subst h3; simp [h2]
        · simp [h3]

@[simp] theorem Memory.get_set_self (m : Memory w) (a : Nat) (v : BitVec w) :
    (Memory.set m a v).get a = some v := by simp [Memory.get_set]

theorem Memory.get_set_other (m : Memory w) {a b : Nat} (v : BitVec w) (h : a ≠ b) :
    (Memory.set m a v).get b = m.get b := by simp [Memory.get_set, h]

theorem Memory.get_append (m n : Memory w) (a : Nat) :
    Memory.get (m ++ n) a = (Memory.get m a).or (Memory.get n a) := by
  induction m with
  | nil => rfl
  | cons c m ih =>
    rw [List.cons_append, Memory.get_cons, Memory.get_cons, ih]
    split <;> rfl

theorem Memory.get_filter (m : Memory w) (p : Nat → Bool) (a : Nat) :
    Memory.get (m.filter fun c => p c.1) a = if p a then Memory.get m a else none := by
  induction m with
  | nil => simp
  | cons c m ih =>
    by_cases hc : p c.1 <;> by_cases ha : c.1 = a
    · subst ha; simp [hc, Memory.get_cons]
    · simp [hc, Memory.get_cons, ha, ih]
    · subst ha; simp [hc, ih]
    · simp [hc, Memory.get_cons, ha, ih]

theorem Memory.get_tabulate (g : Nat → Option (BitVec w)) (lo n a : Nat) :
    Memory.get ((List.range' lo n).filterMap fun b => (g b).map fun v => (b, v)) a =
      if lo ≤ a ∧ a < lo + n then g a else none := by
  induction n generalizing lo with
  | zero =>
    have h : ¬ (lo ≤ a ∧ a < lo + 0) := by omega
    rw [if_neg h]
    rfl
  | succ n ih =>
    rw [List.range'_succ, List.filterMap_cons]
    cases hg : g lo with
    | none =>
      simp only [Option.map_none, ih]
      by_cases h : lo = a
      · subst h
        simp [hg]
      · have e : (lo + 1 ≤ a ∧ a < lo + 1 + n) ↔ (lo ≤ a ∧ a < lo + (n + 1)) := by omega
        simp only [e]
    | some v =>
      simp only [Option.map_some, Memory.get_cons, ih]
      by_cases h : lo = a
      · subst h
        simp [hg]
      · have e : (lo + 1 ≤ a ∧ a < lo + 1 + n) ↔ (lo ≤ a ∧ a < lo + (n + 1)) := by omega
        simp only [e, if_neg h]

/-- The middle part of a fill, as one table. -/
theorem Memory.fill_eq (m : Memory w) (lo n : Nat) (f : Nat → Option (BitVec w)) :
    m.fill lo n f = m.filter (fun c => decide (c.1 < lo)) ++
      ((List.range' lo n).filterMap fun b => ((f b).or (m.get b)).map fun v => (b, v)) ++
      m.filter (fun c => decide (lo + n ≤ c.1)) := by
  unfold Memory.fill
  congr 3
  funext b
  cases f b <;> simp

/-- A read after a fill: inside the filled range the given value, or the old cell where none is given; outside it the
old cell. -/
theorem Memory.get_fill (m : Memory w) (lo n : Nat) (f : Nat → Option (BitVec w)) (a : Nat) :
    (m.fill lo n f).get a = if lo ≤ a ∧ a < lo + n then (f a).or (m.get a) else m.get a := by
  rw [Memory.fill_eq, Memory.get_append, Memory.get_append,
    Memory.get_filter m (fun x => decide (x < lo)) a, Memory.get_filter m (fun x => decide (lo + n ≤ x)) a,
    Memory.get_tabulate]
  by_cases h1 : a < lo
  · have h2 : ¬ (lo ≤ a ∧ a < lo + n) := by omega
    have h3 : ¬ lo + n ≤ a := by omega
    simp [h1, h2, h3]
  · by_cases h3 : lo + n ≤ a
    · have h2 : ¬ (lo ≤ a ∧ a < lo + n) := by omega
      simp [h1, h2, h3]
    · have h2 : lo ≤ a ∧ a < lo + n := by omega
      simp [h1, h2, h3]

/-! ## The canonical form -/

theorem Memory.wf_nil : Memory.wf ([] : Memory w) := by simp [Memory.wf]

theorem Memory.wf_cons (c : Nat × BitVec w) (m : Memory w) :
    Memory.wf (c :: m) ↔ (∀ d ∈ m, c.1 < d.1) ∧ Memory.wf m := by
  simp [Memory.wf]

theorem Memory.mem_set {m : Memory w} {a : Nat} {v : BitVec w} {c : Nat × BitVec w}
    (h : c ∈ Memory.set m a v) : c = (a, v) ∨ c ∈ m := by
  induction m with
  | nil => simpa [Memory.set] using h
  | cons d m ih =>
    obtain ⟨x, u⟩ := d
    simp only [Memory.set] at h
    split at h
    · simpa using h
    · split at h
      · rcases List.mem_cons.mp h with h | h
        · exact .inl h
        · exact .inr (List.mem_cons_of_mem _ h)
      · rcases List.mem_cons.mp h with h | h
        · exact .inr (by simp [h])
        · rcases ih h with h | h
          · exact .inl h
          · exact .inr (List.mem_cons_of_mem _ h)

/-- A write keeps the canonical form. -/
theorem Memory.wf_set {m : Memory w} (h : m.wf) (a : Nat) (v : BitVec w) : Memory.wf (Memory.set m a v) := by
  induction m with
  | nil => simp [Memory.set, Memory.wf]
  | cons c m ih =>
    obtain ⟨x, u⟩ := c
    have hx := (Memory.wf_cons (x, u) m).mp h
    simp only [Memory.set]
    split
    · rename_i hlt
      refine (Memory.wf_cons _ _).mpr ⟨fun d hd => ?_, h⟩
      rcases List.mem_cons.mp hd with rfl | hd
      · exact hlt
      · exact Nat.lt_trans hlt (hx.1 d hd)
    · split
      · rename_i he
        subst he
        exact (Memory.wf_cons _ _).mpr hx
      · rename_i hnlt hne
        refine (Memory.wf_cons _ _).mpr ⟨fun d hd => ?_, ih hx.2⟩
        rcases Memory.mem_set hd with rfl | hd
        · show x < a
          omega
        · exact hx.1 d hd

theorem Memory.wf_filter {m : Memory w} (h : m.wf) (p : Nat × BitVec w → Bool) : Memory.wf (m.filter p) :=
  List.Pairwise.sublist (List.Sublist.map _ List.filter_sublist) h

theorem Memory.mem_tabulate {g : Nat → Option (BitVec w)} {lo n : Nat} {c : Nat × BitVec w}
    (h : c ∈ (List.range' lo n).filterMap fun b => (g b).map fun v => (b, v)) : lo ≤ c.1 ∧ c.1 < lo + n := by
  obtain ⟨b, hb, hc⟩ := List.mem_filterMap.mp h
  cases hg : g b with
  | none => simp [hg] at hc
  | some v =>
    simp only [hg, Option.map_some, Option.some.injEq] at hc
    subst hc
    simpa [List.mem_range'_1] using hb

theorem Memory.wf_tabulate (g : Nat → Option (BitVec w)) (lo n : Nat) :
    Memory.wf ((List.range' lo n).filterMap fun b => (g b).map fun v => (b, v)) := by
  induction n generalizing lo with
  | zero => simp [Memory.wf]
  | succ n ih =>
    rw [List.range'_succ, List.filterMap_cons]
    cases g lo with
    | none => exact ih (lo + 1)
    | some v =>
      refine (Memory.wf_cons _ _).mpr ⟨fun d hd => ?_, ih (lo + 1)⟩
      have := Memory.mem_tabulate hd
      show lo < d.1
      omega

theorem Memory.wf_append {m n : Memory w} (hm : m.wf) (hn : n.wf) (h : ∀ c ∈ m, ∀ d ∈ n, c.1 < d.1) :
    Memory.wf (m ++ n) := by
  unfold Memory.wf
  rw [List.map_append, List.pairwise_append]
  refine ⟨hm, hn, fun a ha b hb => ?_⟩
  obtain ⟨c, hc, rfl⟩ := List.mem_map.mp ha
  obtain ⟨d, hd, rfl⟩ := List.mem_map.mp hb
  exact h c hc d hd

/-- A fill keeps the canonical form. -/
theorem Memory.wf_fill {m : Memory w} (h : m.wf) (lo n : Nat) (f : Nat → Option (BitVec w)) :
    Memory.wf (m.fill lo n f) := by
  rw [Memory.fill_eq]
  refine Memory.wf_append (Memory.wf_append (Memory.wf_filter h _) (Memory.wf_tabulate _ lo n) ?_)
    (Memory.wf_filter h _) ?_
  · intro c hc d hd
    have h1 := (List.mem_filter.mp hc).2
    have h2 := Memory.mem_tabulate hd
    simp only [decide_eq_true_eq] at h1
    omega
  · intro c hc d hd
    have h2 := (List.mem_filter.mp hd).2
    simp only [decide_eq_true_eq] at h2
    rcases List.mem_append.mp hc with hc | hc
    · have h1 := (List.mem_filter.mp hc).2
      simp only [decide_eq_true_eq] at h1
      omega
    · have h1 := Memory.mem_tabulate hc
      omega

theorem Memory.wf_setWord {m : Memory 8} (h : m.wf) (a : Nat) (v : Word) : Memory.wf (m.setWord a v) :=
  Memory.wf_set (Memory.wf_set (Memory.wf_set (Memory.wf_set h _ _) _ _) _ _) _ _

/-! ## Bounds -/

theorem Memory.within_iff {m : Memory w} {lo hi : Nat} :
    m.within lo hi = true ↔ ∀ c ∈ m, lo ≤ c.1 ∧ c.1 < hi := by
  simp [Memory.within]

theorem Memory.within_set {m : Memory w} {lo hi a : Nat} (h : m.within lo hi = true) (v : BitVec w)
    (hlo : lo ≤ a) (hhi : a < hi) : Memory.within (Memory.set m a v) lo hi = true := by
  rw [Memory.within_iff] at h ⊢
  intro c hc
  rcases Memory.mem_set hc with rfl | hc
  · exact ⟨hlo, hhi⟩
  · exact h c hc

/-- A fill of a range inside the bounds keeps them. -/
theorem Memory.within_fill {m : Memory w} {lo hi a n : Nat} (h : m.within lo hi = true)
    (f : Nat → Option (BitVec w)) (hlo : lo ≤ a) (hhi : a + n ≤ hi) : Memory.within (m.fill a n f) lo hi = true := by
  rw [Memory.within_iff] at h ⊢
  rw [Memory.fill_eq]
  intro c hc
  rcases List.mem_append.mp hc with hc | hc
  · rcases List.mem_append.mp hc with hc | hc
    · exact h c (List.mem_filter.mp hc).1
    · have := Memory.mem_tabulate hc
      omega
  · exact h c (List.mem_filter.mp hc).1

/-! ## Equality by cells -/

theorem Memory.get_eq_none {m : Memory w} {a : Nat} (h : ∀ c ∈ m, c.1 ≠ a) : m.get a = none := by
  induction m with
  | nil => rfl
  | cons c m ih =>
    rw [Memory.get_cons, if_neg (h c (by simp)), ih fun d hd => h d (by simp [hd])]

/-- Canonical memories that hold the same cells are the same list. -/
theorem Memory.ext_get {m n : Memory w} (hm : m.wf) (hn : n.wf) (h : ∀ a, m.get a = n.get a) : m = n := by
  induction m generalizing n with
  | nil =>
    cases n with
    | nil => rfl
    | cons d n => simpa [Memory.get_cons] using h d.1
  | cons c m ih =>
    cases n with
    | nil => simpa [Memory.get_cons] using h c.1
    | cons d n =>
      obtain ⟨x, u⟩ := c
      obtain ⟨y, v⟩ := d
      have hx := (Memory.wf_cons (x, u) m).mp hm
      have hy := (Memory.wf_cons (y, v) n).mp hn
      have hxy : x = y := by
        rcases Nat.lt_trichotomy x y with hlt | he | hlt
        · have hz : Memory.get ((y, v) :: n) x = none := Memory.get_eq_none fun e he => by
            rcases List.mem_cons.mp he with rfl | he
            · exact Nat.ne_of_gt hlt
            · exact Nat.ne_of_gt (Nat.lt_trans hlt (hy.1 e he))
          have hq := h x
          rw [hz] at hq
          simp [Memory.get_cons] at hq
        · exact he
        · have hz : Memory.get ((x, u) :: m) y = none := Memory.get_eq_none fun e he => by
            rcases List.mem_cons.mp he with rfl | he
            · exact Nat.ne_of_gt hlt
            · exact Nat.ne_of_gt (Nat.lt_trans hlt (hx.1 e he))
          have hq := h y
          rw [hz] at hq
          simp [Memory.get_cons] at hq
      subst hxy
      have huv : u = v := by simpa [Memory.get_cons] using h x
      subst huv
      refine congrArg _ (ih hx.2 hy.2 fun a => ?_)
      by_cases ha : x = a
      · subst ha
        rw [Memory.get_eq_none fun e he => Nat.ne_of_gt (hx.1 e he),
          Memory.get_eq_none fun e he => Nat.ne_of_gt (hy.1 e he)]
      · have hq := h a
        simpa [Memory.get_cons, ha] using hq

/-! ## Reads -/

theorem Memory.read_of_get {m : Memory w} {a : Nat} {v : BitVec w} (h : m.get a = some v) (k : Nat) :
    m.read a k = v := by simp [Memory.read, h]

@[simp] theorem Memory.read_set_self (m : Memory w) (a k : Nat) (v : BitVec w) : (Memory.set m a v).read a k = v := by
  simp [Memory.read]

theorem Memory.read_set_other (m : Memory w) {a b : Nat} (k : Nat) (v : BitVec w) (h : a ≠ b) :
    (Memory.set m a v).read b k = m.read b k := by
  simp [Memory.read, Memory.get_set_other m v h]

/-- A written cell reads the same whatever the draw. -/
theorem Memory.read_written {m : Memory w} {a : Nat} (h : (m.get a).isSome = true) (j k : Nat) :
    m.read a j = m.read a k := by
  obtain ⟨v, hv⟩ := Option.isSome_iff_exists.mp h
  rw [Memory.read_of_get hv, Memory.read_of_get hv]

/-! ## Bytes of OUT -/

theorem Memory.outByte_of_get {m : Memory 8} {a : Nat} {v : Byte} (h : m.get a = some v) : m.outByte a = v := by
  simp [Memory.outByte, h]

/-- A byte of OUT depends on nothing but what its own address holds. -/
theorem Memory.outByte_congr {m n : Memory 8} {a : Nat} (h : m.get a = n.get a) : m.outByte a = n.outByte a := by
  simp [Memory.outByte, h]

end Sys2Proof.Machine
end

