-- ==== Sys2Proof/Laws/State.lean ====
section
/-!
SUPPORT. What each named update of the state does to each field: one lemma per field per update.
-/

namespace Sys2Proof.Machine

variable (s : State)

/-! ## use of free draws -/

@[simp] theorem State.useDraws_cfg (n : Nat) : (s.useDraws n).cfg = s.cfg := rfl
@[simp] theorem State.useDraws_ctrl (n : Nat) : (s.useDraws n).ctrl = s.ctrl := rfl
@[simp] theorem State.useDraws_scroll (n : Nat) : (s.useDraws n).scroll = s.scroll := rfl
@[simp] theorem State.useDraws_ill (n : Nat) : (s.useDraws n).ill = s.ill := rfl
@[simp] theorem State.useDraws_ovr (n : Nat) : (s.useDraws n).ovr = s.ovr := rfl
@[simp] theorem State.useDraws_result (n : Nat) : (s.useDraws n).result = s.result := rfl
@[simp] theorem State.useDraws_lCtrl (n : Nat) : (s.useDraws n).lCtrl = s.lCtrl := rfl
@[simp] theorem State.useDraws_lScroll (n : Nat) : (s.useDraws n).lScroll = s.lScroll := rfl
@[simp] theorem State.useDraws_seq (n : Nat) : (s.useDraws n).seq = s.seq := rfl
@[simp] theorem State.useDraws_vram (n : Nat) : (s.useDraws n).vram = s.vram := rfl
@[simp] theorem State.useDraws_csb (n : Nat) : (s.useDraws n).csb = s.csb := rfl
@[simp] theorem State.useDraws_ifb (n : Nat) : (s.useDraws n).ifb = s.ifb := rfl
@[simp] theorem State.useDraws_out (n : Nat) : (s.useDraws n).out = s.out := rfl
@[simp] theorem State.useDraws_inbox (n : Nat) : (s.useDraws n).inbox = s.inbox := rfl
@[simp] theorem State.useDraws_answer (n : Nat) : (s.useDraws n).answer = s.answer := rfl
@[simp] theorem State.useDraws_draws (n : Nat) : (s.useDraws n).draws = s.draws + n := rfl

/-! ## a probe's answer -/

@[simp] theorem State.setResult_cfg (v : Word) : (s.setResult v).cfg = s.cfg := rfl
@[simp] theorem State.setResult_ctrl (v : Word) : (s.setResult v).ctrl = s.ctrl := rfl
@[simp] theorem State.setResult_scroll (v : Word) : (s.setResult v).scroll = s.scroll := rfl
@[simp] theorem State.setResult_ill (v : Word) : (s.setResult v).ill = s.ill := rfl
@[simp] theorem State.setResult_ovr (v : Word) : (s.setResult v).ovr = s.ovr := rfl
@[simp] theorem State.setResult_result (v : Word) : (s.setResult v).result = v := rfl
@[simp] theorem State.setResult_lCtrl (v : Word) : (s.setResult v).lCtrl = s.lCtrl := rfl
@[simp] theorem State.setResult_lScroll (v : Word) : (s.setResult v).lScroll = s.lScroll := rfl
@[simp] theorem State.setResult_seq (v : Word) : (s.setResult v).seq = s.seq := rfl
@[simp] theorem State.setResult_vram (v : Word) : (s.setResult v).vram = s.vram := rfl
@[simp] theorem State.setResult_csb (v : Word) : (s.setResult v).csb = s.csb := rfl
@[simp] theorem State.setResult_ifb (v : Word) : (s.setResult v).ifb = s.ifb := rfl
@[simp] theorem State.setResult_out (v : Word) : (s.setResult v).out = s.out := rfl
@[simp] theorem State.setResult_inbox (v : Word) : (s.setResult v).inbox = s.inbox := rfl
@[simp] theorem State.setResult_answer (v : Word) : (s.setResult v).answer = s.answer := rfl
@[simp] theorem State.setResult_draws (v : Word) : (s.setResult v).draws = s.draws := rfl

/-! ## completion -/

@[simp] theorem State.complete_cfg : (s.complete).cfg = s.cfg := rfl
@[simp] theorem State.complete_ctrl : (s.complete).ctrl = s.ctrl := rfl
@[simp] theorem State.complete_scroll : (s.complete).scroll = s.scroll := rfl
@[simp] theorem State.complete_ill : (s.complete).ill = s.ill := rfl
@[simp] theorem State.complete_ovr : (s.complete).ovr = s.ovr := rfl
@[simp] theorem State.complete_result : (s.complete).result = s.result := rfl
@[simp] theorem State.complete_lCtrl : (s.complete).lCtrl = s.lCtrl := rfl
@[simp] theorem State.complete_lScroll : (s.complete).lScroll = s.lScroll := rfl
@[simp] theorem State.complete_seq : (s.complete).seq = .idle := rfl
@[simp] theorem State.complete_vram : (s.complete).vram = s.vram := rfl
@[simp] theorem State.complete_csb : (s.complete).csb = s.csb := rfl
@[simp] theorem State.complete_ifb : (s.complete).ifb = s.ifb := rfl
@[simp] theorem State.complete_out : (s.complete).out = s.out := rfl
@[simp] theorem State.complete_inbox : (s.complete).inbox = s.inbox := rfl
@[simp] theorem State.complete_answer : (s.complete).answer = s.answer := rfl
@[simp] theorem State.complete_draws : (s.complete).draws = s.draws := rfl

/-! ## a write to STATUS -/

@[simp] theorem State.clearErr_cfg (v : Word) : (s.clearErr v).cfg = s.cfg := rfl
@[simp] theorem State.clearErr_ctrl (v : Word) : (s.clearErr v).ctrl = s.ctrl := rfl
@[simp] theorem State.clearErr_scroll (v : Word) : (s.clearErr v).scroll = s.scroll := rfl
@[simp] theorem State.clearErr_ill (v : Word) : (s.clearErr v).ill = (s.ill && !v.getLsbD 8) := rfl
@[simp] theorem State.clearErr_ovr (v : Word) : (s.clearErr v).ovr = (s.ovr && !v.getLsbD 9) := rfl
@[simp] theorem State.clearErr_result (v : Word) : (s.clearErr v).result = s.result := rfl
@[simp] theorem State.clearErr_lCtrl (v : Word) : (s.clearErr v).lCtrl = s.lCtrl := rfl
@[simp] theorem State.clearErr_lScroll (v : Word) : (s.clearErr v).lScroll = s.lScroll := rfl
@[simp] theorem State.clearErr_seq (v : Word) : (s.clearErr v).seq = s.seq := rfl
@[simp] theorem State.clearErr_vram (v : Word) : (s.clearErr v).vram = s.vram := rfl
@[simp] theorem State.clearErr_csb (v : Word) : (s.clearErr v).csb = s.csb := rfl
@[simp] theorem State.clearErr_ifb (v : Word) : (s.clearErr v).ifb = s.ifb := rfl
@[simp] theorem State.clearErr_out (v : Word) : (s.clearErr v).out = s.out := rfl
@[simp] theorem State.clearErr_inbox (v : Word) : (s.clearErr v).inbox = s.inbox := rfl
@[simp] theorem State.clearErr_answer (v : Word) : (s.clearErr v).answer = s.answer := rfl
@[simp] theorem State.clearErr_draws (v : Word) : (s.clearErr v).draws = s.draws := rfl

/-! ## the registers' reset -/

@[simp] theorem State.resetRegisters_cfg : (s.resetRegisters).cfg = s.cfg := rfl
@[simp] theorem State.resetRegisters_ctrl : (s.resetRegisters).ctrl = 0 := rfl
@[simp] theorem State.resetRegisters_scroll : (s.resetRegisters).scroll = 0 := rfl
@[simp] theorem State.resetRegisters_ill : (s.resetRegisters).ill = false := rfl
@[simp] theorem State.resetRegisters_ovr : (s.resetRegisters).ovr = false := rfl
@[simp] theorem State.resetRegisters_result : (s.resetRegisters).result = 0 := rfl
@[simp] theorem State.resetRegisters_lCtrl : (s.resetRegisters).lCtrl = 0 := rfl
@[simp] theorem State.resetRegisters_lScroll : (s.resetRegisters).lScroll = 0 := rfl
@[simp] theorem State.resetRegisters_seq : (s.resetRegisters).seq = .idle := rfl
@[simp] theorem State.resetRegisters_vram : (s.resetRegisters).vram = s.vram := rfl
@[simp] theorem State.resetRegisters_csb : (s.resetRegisters).csb = s.csb := rfl
@[simp] theorem State.resetRegisters_ifb : (s.resetRegisters).ifb = s.ifb := rfl
@[simp] theorem State.resetRegisters_out : (s.resetRegisters).out = s.out := rfl
@[simp] theorem State.resetRegisters_inbox : (s.resetRegisters).inbox = s.inbox := rfl
@[simp] theorem State.resetRegisters_answer : (s.resetRegisters).answer = s.answer := rfl
@[simp] theorem State.resetRegisters_draws : (s.resetRegisters).draws = s.draws := rfl

/-! ## CLEAR -/

@[simp] theorem State.clear_cfg : (s.clear).cfg = s.cfg := rfl
@[simp] theorem State.clear_ctrl : (s.clear).ctrl = s.ctrl := rfl
@[simp] theorem State.clear_scroll : (s.clear).scroll = s.scroll := rfl
@[simp] theorem State.clear_ill : (s.clear).ill = s.ill := rfl
@[simp] theorem State.clear_ovr : (s.clear).ovr = s.ovr := rfl
@[simp] theorem State.clear_result : (s.clear).result = s.result := rfl
@[simp] theorem State.clear_lCtrl : (s.clear).lCtrl = s.lCtrl := rfl
@[simp] theorem State.clear_lScroll : (s.clear).lScroll = s.lScroll := rfl
@[simp] theorem State.clear_seq : (s.clear).seq = s.seq := rfl
@[simp] theorem State.clear_vram : (s.clear).vram = s.vram := rfl
@[simp] theorem State.clear_csb : (s.clear).csb = s.csb := rfl
@[simp] theorem State.clear_ifb : (s.clear).ifb = s.ifb.fill 0 (s.cfg.w * s.cfg.h) (fun _ => some s.bgidx) := rfl
@[simp] theorem State.clear_out : (s.clear).out = s.out := rfl
@[simp] theorem State.clear_inbox : (s.clear).inbox = s.inbox := rfl
@[simp] theorem State.clear_answer : (s.clear).answer = s.answer := rfl
@[simp] theorem State.clear_draws : (s.clear).draws = s.draws := rfl

/-! ## COMPOSE -/

@[simp] theorem State.compose_cfg : (s.compose).cfg = s.cfg := rfl
@[simp] theorem State.compose_ctrl : (s.compose).ctrl = s.ctrl := rfl
@[simp] theorem State.compose_scroll : (s.compose).scroll = s.scroll := rfl
@[simp] theorem State.compose_ill : (s.compose).ill = s.ill := rfl
@[simp] theorem State.compose_ovr : (s.compose).ovr = s.ovr := rfl
@[simp] theorem State.compose_result : (s.compose).result = s.result := rfl
@[simp] theorem State.compose_lCtrl : (s.compose).lCtrl = s.lCtrl := rfl
@[simp] theorem State.compose_lScroll : (s.compose).lScroll = s.lScroll := rfl
@[simp] theorem State.compose_seq : (s.compose).seq = s.seq := rfl
@[simp] theorem State.compose_vram : (s.compose).vram = s.vram := rfl
@[simp] theorem State.compose_csb : (s.compose).csb = s.csb := rfl
@[simp] theorem State.compose_ifb : (s.compose).ifb = s.composedIfb := rfl
@[simp] theorem State.compose_out : (s.compose).out = s.out := rfl
@[simp] theorem State.compose_inbox : (s.compose).inbox = s.inbox := rfl
@[simp] theorem State.compose_answer : (s.compose).answer = s.answer := rfl
@[simp] theorem State.compose_draws : (s.compose).draws = s.draws + drawsPerTile * 1024 := rfl

/-! ## CONVERT -/

@[simp] theorem State.convert_cfg : (s.convert).cfg = s.cfg := rfl
@[simp] theorem State.convert_ctrl : (s.convert).ctrl = s.ctrl := rfl
@[simp] theorem State.convert_scroll : (s.convert).scroll = s.scroll := rfl
@[simp] theorem State.convert_ill : (s.convert).ill = s.ill := rfl
@[simp] theorem State.convert_ovr : (s.convert).ovr = s.ovr := rfl
@[simp] theorem State.convert_result : (s.convert).result = s.result := rfl
@[simp] theorem State.convert_lCtrl : (s.convert).lCtrl = s.lCtrl := rfl
@[simp] theorem State.convert_lScroll : (s.convert).lScroll = s.lScroll := rfl
@[simp] theorem State.convert_seq : (s.convert).seq = s.seq := rfl
@[simp] theorem State.convert_vram : (s.convert).vram = s.vram := rfl
@[simp] theorem State.convert_csb : (s.convert).csb = s.csb := rfl
@[simp] theorem State.convert_ifb : (s.convert).ifb = s.ifb := rfl
@[simp] theorem State.convert_out : (s.convert).out = s.out.fill s.cfg.outBase (outBytes s.cfg) s.convertByte := rfl
@[simp] theorem State.convert_inbox : (s.convert).inbox = s.inbox := rfl
@[simp] theorem State.convert_answer : (s.convert).answer = s.answer := rfl
@[simp] theorem State.convert_draws : (s.convert).draws = s.draws + 2 * (s.cfg.wo * s.cfg.ho) := rfl

/-! ## error events -/

@[simp] theorem State.raiseErr_ill_cfg : (s.raiseErr .ill).cfg = s.cfg := rfl
@[simp] theorem State.raiseErr_ovr_cfg : (s.raiseErr .ovr).cfg = s.cfg := rfl
@[simp] theorem State.raiseErr_ill_ctrl : (s.raiseErr .ill).ctrl = s.ctrl := rfl
@[simp] theorem State.raiseErr_ovr_ctrl : (s.raiseErr .ovr).ctrl = s.ctrl := rfl
@[simp] theorem State.raiseErr_ill_scroll : (s.raiseErr .ill).scroll = s.scroll := rfl
@[simp] theorem State.raiseErr_ovr_scroll : (s.raiseErr .ovr).scroll = s.scroll := rfl
@[simp] theorem State.raiseErr_ill_ill : (s.raiseErr .ill).ill = true := rfl
@[simp] theorem State.raiseErr_ovr_ill : (s.raiseErr .ovr).ill = s.ill := rfl
@[simp] theorem State.raiseErr_ill_ovr : (s.raiseErr .ill).ovr = s.ovr := rfl
@[simp] theorem State.raiseErr_ovr_ovr : (s.raiseErr .ovr).ovr = true := rfl
@[simp] theorem State.raiseErr_ill_result : (s.raiseErr .ill).result = s.result := rfl
@[simp] theorem State.raiseErr_ovr_result : (s.raiseErr .ovr).result = s.result := rfl
@[simp] theorem State.raiseErr_ill_lCtrl : (s.raiseErr .ill).lCtrl = s.lCtrl := rfl
@[simp] theorem State.raiseErr_ovr_lCtrl : (s.raiseErr .ovr).lCtrl = s.lCtrl := rfl
@[simp] theorem State.raiseErr_ill_lScroll : (s.raiseErr .ill).lScroll = s.lScroll := rfl
@[simp] theorem State.raiseErr_ovr_lScroll : (s.raiseErr .ovr).lScroll = s.lScroll := rfl
@[simp] theorem State.raiseErr_ill_seq : (s.raiseErr .ill).seq = s.seq := rfl
@[simp] theorem State.raiseErr_ovr_seq : (s.raiseErr .ovr).seq = s.seq := rfl
@[simp] theorem State.raiseErr_ill_vram : (s.raiseErr .ill).vram = s.vram := rfl
@[simp] theorem State.raiseErr_ovr_vram : (s.raiseErr .ovr).vram = s.vram := rfl
@[simp] theorem State.raiseErr_ill_csb : (s.raiseErr .ill).csb = s.csb := rfl
@[simp] theorem State.raiseErr_ovr_csb : (s.raiseErr .ovr).csb = s.csb := rfl
@[simp] theorem State.raiseErr_ill_ifb : (s.raiseErr .ill).ifb = s.ifb := rfl
@[simp] theorem State.raiseErr_ovr_ifb : (s.raiseErr .ovr).ifb = s.ifb := rfl
@[simp] theorem State.raiseErr_ill_out : (s.raiseErr .ill).out = s.out := rfl
@[simp] theorem State.raiseErr_ovr_out : (s.raiseErr .ovr).out = s.out := rfl
@[simp] theorem State.raiseErr_ill_inbox : (s.raiseErr .ill).inbox = s.inbox := rfl
@[simp] theorem State.raiseErr_ovr_inbox : (s.raiseErr .ovr).inbox = s.inbox := rfl
@[simp] theorem State.raiseErr_ill_answer : (s.raiseErr .ill).answer = s.answer := rfl
@[simp] theorem State.raiseErr_ovr_answer : (s.raiseErr .ovr).answer = s.answer := rfl
@[simp] theorem State.raiseErr_ill_draws : (s.raiseErr .ill).draws = s.draws := rfl
@[simp] theorem State.raiseErr_ovr_draws : (s.raiseErr .ovr).draws = s.draws := rfl

end Sys2Proof.Machine
end

