-- ==== Sys2Proof/Laws/Word.lean ====
section
/-!
SUPPORT. The bits of a placed field, and words split into fields.
-/

namespace Sys2Proof

theorem place_getLsbD {w : Nat} (lo : Nat) (v : BitVec w) (j : Nat) :
    (place lo v).getLsbD j = (decide (lo ≤ j) && decide (j < 32) && v.getLsbD (j - lo)) := by
  simp only [place, BitVec.getLsbD_shiftLeft, BitVec.getLsbD_setWidth]
  by_cases h1 : j < 32 <;> by_cases h2 : j < lo
  · have h3 : ¬ lo ≤ j := by omega
    simp [h1, h2, h3]
  · have h3 : lo ≤ j := by omega
    have h4 : j - lo < 32 := by omega
    simp [h1, h2, h3, h4]
  · simp [h1]
  · simp [h1]

/-- A field that fits its place is its value times the weight of its lowest bit. -/
theorem place_toNat {w : Nat} {lo : Nat} (h : w + lo ≤ 32) (v : BitVec w) :
    (place lo v).toNat = v.toNat * 2 ^ lo := by
  have hv := v.isLt
  have h1 : v.toNat * 2 ^ lo < 2 ^ 32 := by
    calc v.toNat * 2 ^ lo < 2 ^ w * 2 ^ lo := Nat.mul_lt_mul_of_pos_right hv (Nat.two_pow_pos lo)
      _ = 2 ^ (w + lo) := (Nat.pow_add 2 w lo).symm
      _ ≤ 2 ^ 32 := Nat.pow_le_pow_right (by omega) h
  have h2 : v.toNat < 2 ^ 32 := Nat.lt_of_lt_of_le hv (Nat.pow_le_pow_right (by omega) (by omega))
  rw [place, BitVec.toNat_shiftLeft, BitVec.toNat_setWidth, Nat.mod_eq_of_lt h2, Nat.shiftLeft_eq,
    Nat.mod_eq_of_lt h1]

/-- A field placed below a multiple of the weight just above it adds to it. -/
theorem or_place_toNat {w : Nat} {x : Word} {lo a : Nat} (v : BitVec w) (hx : x.toNat = 2 ^ (w + lo) * a)
    (h : w + lo ≤ 32) : (x ||| place lo v).toNat = x.toNat + v.toNat * 2 ^ lo := by
  have h1 : (place lo v).toNat < 2 ^ (w + lo) := by
    rw [place_toNat h, Nat.pow_add]
    exact Nat.mul_lt_mul_of_pos_right v.isLt (Nat.two_pow_pos lo)
  rw [BitVec.toNat_or, hx, ← Nat.two_pow_add_eq_or_of_lt h1, place_toNat h]

end Sys2Proof
end

