-- ==== Sys2Proof/Laws/Ops.lean ====
section
/-!
SUPPORT. One lemma per shared operation that says everything it can do.
-/

namespace Sys2Proof.Machine

/-! ## Index arithmetic of row-major memories -/

theorem rowMajor_div {width x y : Nat} (h : x < width) : (y * width + x) / width = y := by
  rw [Nat.mul_comm, Nat.mul_add_div (by omega), Nat.div_eq_of_lt h, Nat.add_zero]

theorem rowMajor_mod {width x y : Nat} (h : x < width) : (y * width + x) % width = x := by
  rw [Nat.mul_comm, Nat.mul_add_mod, Nat.mod_eq_of_lt h]

theorem rowMajor_lt {width height x y : Nat} (hx : x < width) (hy : y < height) :
    y * width + x < width * height := by
  calc y * width + x < y * width + width := by omega
    _ = (y + 1) * width := by rw [Nat.add_mul, Nat.one_mul]
    _ ≤ height * width := Nat.mul_le_mul_right _ hy
    _ = width * height := Nat.mul_comm _ _

/-! ## Little-endian composition as numbers -/

theorem joinBytes_w8 (b : Nat → Byte) : (joinBytes .w8 b).toNat = (b 0).toNat := by
  rw [joinBytes, place_toNat (by decide)]
  omega

theorem joinBytes_w16 (b : Nat → Byte) : (joinBytes .w16 b).toNat = (b 0).toNat + (b 1).toNat * 256 := by
  have e1 : (place 8 (b 1)).toNat = (b 1).toNat * 2 ^ 8 := place_toNat (by decide) _
  have e0 := or_place_toNat (x := place 8 (b 1)) (lo := 0) (a := (b 1).toNat) (b 0) (by rw [e1]; omega) (by decide)
  rw [joinBytes, e0, e1]
  omega

theorem joinBytes_w32 (b : Nat → Byte) :
    (joinBytes .w32 b).toNat =
      (b 0).toNat + (b 1).toNat * 256 + (b 2).toNat * 65536 + (b 3).toNat * 16777216 := by
  have e3 : (place 24 (b 3)).toNat = (b 3).toNat * 2 ^ 24 := place_toNat (by decide) _
  have e2 := or_place_toNat (x := place 24 (b 3)) (lo := 16) (a := (b 3).toNat) (b 2)
    (by rw [e3]; exact Nat.mul_comm _ _) (by decide)
  have e1 := or_place_toNat (x := place 24 (b 3) ||| place 16 (b 2)) (lo := 8)
    (a := (b 3).toNat * 256 + (b 2).toNat) (b 1) (by rw [e2, e3]; omega) (by decide)
  have e0 := or_place_toNat (x := place 24 (b 3) ||| place 16 (b 2) ||| place 8 (b 1)) (lo := 0)
    (a := (b 3).toNat * 65536 + (b 2).toNat * 256 + (b 1).toNat) (b 0) (by rw [e1, e2, e3]; omega) (by decide)
  rw [joinBytes, e0, e1, e2, e3]
  omega

/-- Byte `i` of a word as a number. -/
theorem byteAt_eq (v : Word) (i : Nat) : byteAt v i = BitVec.ofNat 8 (v.toNat / 256 ^ i) := by
  apply BitVec.eq_of_toNat_eq
  simp [byteAt, Nat.shiftRight_eq_div_pow, Nat.pow_mul]

/-! ## The performances, cell by cell -/

/-- After CLEAR a cell of the IFB holds BGIDX; an address that is no cell holds what it held. -/
theorem State.clear_get (s : State) (a : Nat) :
    s.clear.ifb.get a = if a < s.cfg.w * s.cfg.h then some s.bgidx else s.ifb.get a := by
  rw [State.clear_ifb, Memory.get_fill]
  simp

/-- After COMPOSE a cell of the IFB holds the canvas pixel shown there; an address that is no cell holds what it
held. -/
theorem State.compose_get (s : State) (a : Nat) :
    s.compose.ifb.get a =
      if a < s.cfg.w * s.cfg.h then
        some (s.canvasPixel ((a % s.cfg.w + s.scx) % 256) ((a / s.cfg.w + s.scy) % 256))
      else s.ifb.get a := by
  rw [State.compose_ifb, State.composedIfb, Memory.get_fill]
  simp

/-- After CONVERT a byte of OUT holds what CONVERT writes there, or what it held where CONVERT writes nothing. -/
theorem State.convert_get (s : State) (a : Nat) :
    s.convert.out.get a =
      if s.cfg.outBase ≤ a ∧ a < s.cfg.outBase + outBytes s.cfg then (s.convertByte a).or (s.out.get a)
      else s.out.get a := by
  rw [State.convert_out, Memory.get_fill]

/-! ## The canonical form and the bounds of the performances -/

theorem State.clear_ifb_wf {s : State} (h : s.ifb.wf) : s.clear.ifb.wf := by
  rw [State.clear_ifb]
  exact Memory.wf_fill h _ _ _

theorem State.compose_ifb_wf {s : State} (h : s.ifb.wf) : s.compose.ifb.wf := by
  rw [State.compose_ifb]
  exact Memory.wf_fill h _ _ _

theorem State.convert_out_wf {s : State} (h : s.out.wf) : s.convert.out.wf := by
  rw [State.convert_out]
  exact Memory.wf_fill h _ _ _

theorem State.clear_ifb_within {s : State} (h : s.ifb.within 0 (s.cfg.w * s.cfg.h) = true) :
    s.clear.ifb.within 0 (s.cfg.w * s.cfg.h) = true := by
  rw [State.clear_ifb]
  exact Memory.within_fill h _ (Nat.zero_le _) (by omega)

theorem State.compose_ifb_within {s : State} (h : s.ifb.within 0 (s.cfg.w * s.cfg.h) = true) :
    s.compose.ifb.within 0 (s.cfg.w * s.cfg.h) = true := by
  rw [State.compose_ifb, State.composedIfb]
  exact Memory.within_fill h _ (Nat.zero_le _) (by omega)

theorem State.convert_out_within {s : State}
    (h : s.out.within s.cfg.outBase (s.cfg.outBase + outBytes s.cfg) = true) :
    s.convert.out.within s.cfg.outBase (s.cfg.outBase + outBytes s.cfg) = true := by
  rw [State.convert_out]
  exact Memory.within_fill h _ (Nat.le_refl _) (Nat.le_refl _)

/-! ## Acceptance -/

/-- Everything a CMD write can do: OVR while busy, ILL for a reserved opcode, else the latches are loaded and the word
runs. -/
theorem State.offerCommand_cases (s : State) (word : Word) :
    ((∃ c, s.seq = .running c) ∧ s.offerCommand word = s.raiseErr .ovr) ∨
    (s.seq = .idle ∧ (∃ op, decode word = .illegal op) ∧ s.offerCommand word = s.raiseErr .ill) ∨
    (s.seq = .idle ∧ (∃ i, decode word = .command i) ∧
      s.offerCommand word = { s with lCtrl := s.ctrl, lScroll := s.scroll, seq := .running word }) := by
  unfold State.offerCommand
  split
  · rename_i c h
    exact .inl ⟨⟨c, h⟩, rfl⟩
  · rename_i h
    split
    · rename_i op hd
      exact .inr (.inl ⟨h, ⟨op, hd⟩, rfl⟩)
    · rename_i i hd
      exact .inr (.inr ⟨h, ⟨i, hd⟩, rfl⟩)

/-! ## The running command -/

theorem State.current_of_running {s : State} {word : Word} {i : Instr} (hs : s.seq = .running word)
    (hd : decode word = .command i) : s.current = some i := by
  simp [State.current, hs, hd]

theorem State.current_of_idle {s : State} (hs : s.seq = .idle) : s.current = none := by
  simp [State.current, hs]

theorem State.blockTurn_of_running {s : State} {word : Word} {i : Instr} (hs : s.seq = .running word)
    (hd : decode word = .command i) : s.blockTurn = exec i s := by
  simp [State.blockTurn, hs, hd]

theorem State.blockTurn_of_idle {s : State} (hs : s.seq = .idle) : s.blockTurn = .next s := by
  simp [State.blockTurn, hs]

/-! ## Steps -/

/-- A step on a valid configuration with a turn waiting takes that turn. -/
theorem step_of_turn {s : State} {t : Turn} {rest : List Turn} (hc : validConfig s.cfg = true)
    (hi : s.inbox = t :: rest) : step s = takeTurn t { s with inbox := rest } := by
  simp [step, nextTurn, hc, hi]

/-- A step on a valid configuration with no turn waiting is the block's. -/
theorem step_of_empty {s : State} (hc : validConfig s.cfg = true) (hi : s.inbox = []) : step s = s.blockTurn := by
  simp [step, nextTurn, hc, hi]

theorem step_of_invalid {s : State} (hc : validConfig s.cfg = false) : step s = .refused .invalidConfig := by
  simp [step, nextTurn, hc]

/-- Everything a step that answers a next state can be: a turn taken, or the block's own. -/
theorem step_cases {s t : State} (h : step s = .next t) :
    validConfig s.cfg = true ∧
      ((∃ u rest, s.inbox = u :: rest ∧ takeTurn u { s with inbox := rest } = .next t) ∨
       (s.inbox = [] ∧ s.blockTurn = .next t)) := by
  by_cases hc : validConfig s.cfg = true
  · refine ⟨hc, ?_⟩
    cases hi : s.inbox with
    | nil => exact .inr ⟨rfl, by rw [← h, step_of_empty hc hi]⟩
    | cons u rest => exact .inl ⟨u, rest, rfl, by rw [← h, step_of_turn hc hi]⟩
  · rw [step_of_invalid (by simpa using hc)] at h
    cases h

/-- A run of the machine goes on from the state a step answers. -/
theorem run_succ {s t : State} (h : step s = .next t) (k : Nat) :
    Sys2Proof.core.run (k + 1) s = Sys2Proof.core.run k t := by
  have h' : Sys2Proof.core.step s = .next t := h
  simp only [Host.Core.run, h']

/-- A run of no steps stays. -/
theorem run_zero (s : State) : Sys2Proof.core.run 0 s = .next s := rfl

/-- A register access through the window of the block reaches its offset. -/
theorem inWindow_offset (c : Config) {off : Nat} (h : off < windowBytes) : inWindow c (c.blockBase + off) = true := by
  simp [inWindow]; omega

@[simp] theorem offset_of_base (c : Config) (off : Nat) : c.blockBase + off - c.blockBase = off := by omega

theorem takeTurn_write {s : State} {off : Nat} (h : off < windowBytes) (width : Width) (v : Word) :
    takeTurn (.write (s.cfg.blockBase + off) width v) s = hostWrite s off width v := by
  simp [takeTurn, inWindow_offset s.cfg h]

theorem takeTurn_read {s : State} {off : Nat} (h : off < windowBytes) (width : Width) :
    takeTurn (.read (s.cfg.blockBase + off) width) s = hostRead s off width := by
  simp [takeTurn, inWindow_offset s.cfg h]

/-- A step that takes a host write inside the window is that write. -/
theorem step_write {s : State} {off : Nat} {width : Width} {v : Word} {rest : List Turn}
    (hc : validConfig s.cfg = true) (h : off < windowBytes)
    (hi : s.inbox = .write (s.cfg.blockBase + off) width v :: rest) :
    step s = hostWrite { s with inbox := rest } off width v := by
  rw [step_of_turn hc hi]
  exact takeTurn_write (s := { s with inbox := rest }) h width v

/-- A step that takes a host read inside the window is that read. -/
theorem step_read {s : State} {off : Nat} {width : Width} {rest : List Turn}
    (hc : validConfig s.cfg = true) (h : off < windowBytes)
    (hi : s.inbox = .read (s.cfg.blockBase + off) width :: rest) :
    step s = hostRead { s with inbox := rest } off width := by
  rw [step_of_turn hc hi]
  exact takeTurn_read (s := { s with inbox := rest }) h width

theorem hostWrite_register {s : State} {off : Nat} (h : off < 0x01000) (ha : off % 4 = 0) (v : Word) :
    hostWrite s off .w32 v = .next (s.writeRegister off v) := by
  simp [hostWrite, h, ha]

theorem hostRead_register {s : State} {off : Nat} (h : off < 0x01000) (ha : off % 4 = 0) :
    hostRead s off .w32 = .next { s with answer := some (s.readRegister off) } := by
  simp [hostRead, h, ha]

/-- Everything a host write can answer: a register write, a window write, a race, or a refusal. -/
theorem hostWrite_next {s t : State} {off : Nat} {width : Width} {v : Word} (h : hostWrite s off width v = .next t) :
    (off < 0x01000 ∧ width = .w32 ∧ off % 4 = 0 ∧ t = s.writeRegister off v) ∨
    (¬ off < 0x01000 ∧ misaligned off width.bytes = false ∧ s.raceIn off width.bytes = none ∧
      t = s.storeBytes off v width.bytes) := by
  unfold hostWrite at h
  split at h
  · rename_i h1
    split at h
    · rename_i h2
      cases h
      exact .inl ⟨h1, h2.1, h2.2, rfl⟩
    · cases h
  · rename_i h1
    split at h
    · cases h
    · rename_i h2
      split at h
      · cases h
      · rename_i h3
        cases h
        exact .inr ⟨h1, by simpa using h2, h3, rfl⟩

/-- A host read that answers changes `answer` and the draws only. -/
theorem hostRead_next {s t : State} {off : Nat} {width : Width} (h : hostRead s off width = .next t) :
    t = { s with answer := t.answer, draws := t.draws } := by
  unfold hostRead at h
  split at h
  · split at h
    · cases h; rfl
    · cases h
  · split at h
    · cases h
    · cases h; rfl

/-- A read of OUT that answers changes `answer` and the draws only. -/
theorem outRead_next {s t : State} {addr : Nat} (h : outRead s addr = .next t) :
    t = { s with answer := t.answer, draws := t.draws } := by
  unfold outRead at h
  simp only at h
  split at h
  · split at h
    · split at h
      · cases h; rfl
      · cases h
      · cases h
    · cases h; rfl
  · cases h

/-- A read of an OUT word while no command that writes OUT runs answers the word that stands there, and changes `answer`
alone. -/
theorem outRead_quiet {s : State} {addr : Nat} (h : inOut s.cfg addr = true) (hr : s.runs writesOut = false) :
    outRead s addr = .next { s with answer := some (s.out.outWord addr) } := by
  simp [outRead, h, hr]

/-- An outside write to OUT that answers stores one word, while no command that writes OUT runs. -/
theorem outWrite_next {s t : State} {addr : Nat} {v : Word} (h : outWrite s addr v = .next t) :
    inOut s.cfg addr = true ∧ s.runs writesOut = false ∧ t = { s with out := s.out.setWord addr v } := by
  unfold outWrite at h
  split at h
  · rename_i h1
    split at h
    · cases h
    · rename_i h2
      cases h
      exact ⟨h1, by simpa using h2, rfl⟩
  · cases h

/-- One byte stored by the host changes VRAM or the CSB only. -/
theorem State.storeByte_only (s : State) (off : Nat) (b : Byte) :
    ∃ vram csb, s.storeByte off b = { s with vram := vram, csb := csb } := by
  unfold State.storeByte
  split
  · exact ⟨_, _, rfl⟩
  · split
    · exact ⟨_, _, rfl⟩
    · exact ⟨_, _, rfl⟩

/-- A host write to the memory windows changes VRAM or the CSB only. -/
theorem State.storeBytes_only (s : State) (off : Nat) (v : Word) (n : Nat) :
    ∃ vram csb, s.storeBytes off v n = { s with vram := vram, csb := csb } := by
  induction n with
  | zero => exact ⟨_, _, rfl⟩
  | succ n ih =>
    obtain ⟨m, c, h⟩ := ih
    obtain ⟨m', c', h'⟩ := State.storeByte_only (s.storeBytes off v n) (off + n) (byteAt v n)
    refine ⟨m', c', ?_⟩
    show (s.storeBytes off v n).storeByte (off + n) (byteAt v n) = _
    rw [h', h]

end Sys2Proof.Machine
end

