-- ==== Sys2Proof/Laws/PerInstr.lean ====
section
/-!
SUPPORT. The family Encoding: what the encoder makes of each command carries that command's opcode and has every
reserved bit of its format 0 (30_encoding.md R72, R74).
-/

/-- The encoded word of `i` carries the opcode of `i`, and its reserved bits are 0. -/
def Sys2Proof.Laws.Encoding.Statement (i : Sys2Proof.Instr) : Prop :=
  Sys2Proof.opcodeOf (Sys2Proof.encode i) = i.opcode ∧ Sys2Proof.encode i &&& i.reservedMask = 0#32

namespace Sys2Proof.Laws.Encoding

theorem nop : Statement .nop := by constructor <;> decide

theorem clear : Statement .clear := by constructor <;> decide

theorem compose : Statement .compose := by constructor <;> decide

theorem convert : Statement .convert := by constructor <;> decide

theorem frame : Statement .frame := by constructor <;> decide

theorem unpack (idx : BitVec 8) (row col : BitVec 3) : Statement (.unpack idx row col) := by
  constructor
  · apply BitVec.eq_of_getLsbD_eq
    intro i hi
    simp only [encode, Instr.opcode, opcodeOf, place_getLsbD, BitVec.getLsbD_extractLsb', BitVec.getLsbD_or]
    rcases i with _|_|_|_|_|_|_|_|i <;> first | omega | simp [BitVec.getLsbD_of_ge]
  · apply BitVec.eq_of_getLsbD_eq
    intro i hi
    simp only [encode, Instr.reservedMask, Instr.opcode, place_getLsbD, BitVec.getLsbD_and, BitVec.getLsbD_or]
    rcases i with _|_|_|_|_|_|_|_|_|_|_|_|_|_|_|_|_|_|_|_|_|_|_|_|_|_|_|_|_|_|_|_|i <;>
      first | omega | simp [BitVec.getLsbD_of_ge]

theorem lut (pix : BitVec 2) : Statement (.lut pix) := by
  constructor
  · apply BitVec.eq_of_getLsbD_eq
    intro i hi
    simp only [encode, Instr.opcode, opcodeOf, place_getLsbD, BitVec.getLsbD_extractLsb', BitVec.getLsbD_or]
    rcases i with _|_|_|_|_|_|_|_|i <;> first | omega | simp [BitVec.getLsbD_of_ge]
  · apply BitVec.eq_of_getLsbD_eq
    intro i hi
    simp only [encode, Instr.reservedMask, Instr.opcode, place_getLsbD, BitVec.getLsbD_and, BitVec.getLsbD_or]
    rcases i with _|_|_|_|_|_|_|_|_|_|_|_|_|_|_|_|_|_|_|_|_|_|_|_|_|_|_|_|_|_|_|_|i <;>
      first | omega | simp [BitVec.getLsbD_of_ge]

theorem resample (xo yo : BitVec 12) : Statement (.resample xo yo) := by
  constructor
  · apply BitVec.eq_of_getLsbD_eq
    intro i hi
    simp only [encode, Instr.opcode, opcodeOf, place_getLsbD, BitVec.getLsbD_extractLsb', BitVec.getLsbD_or]
    rcases i with _|_|_|_|_|_|_|_|i <;> first | omega | simp [BitVec.getLsbD_of_ge]
  · simp [Instr.reservedMask]

theorem expand (sample : BitVec 16) : Statement (.expand sample) := by
  constructor
  · apply BitVec.eq_of_getLsbD_eq
    intro i hi
    simp only [encode, Instr.opcode, opcodeOf, place_getLsbD, BitVec.getLsbD_extractLsb', BitVec.getLsbD_or]
    rcases i with _|_|_|_|_|_|_|_|i <;> first | omega | simp [BitVec.getLsbD_of_ge]
  · apply BitVec.eq_of_getLsbD_eq
    intro i hi
    simp only [encode, Instr.reservedMask, Instr.opcode, place_getLsbD, BitVec.getLsbD_and, BitVec.getLsbD_or]
    rcases i with _|_|_|_|_|_|_|_|_|_|_|_|_|_|_|_|_|_|_|_|_|_|_|_|_|_|_|_|_|_|_|_|i <;>
      first | omega | simp [BitVec.getLsbD_of_ge]

end Sys2Proof.Laws.Encoding
end

