-- ==== Sys2Proof/Laws/Window.lean ====
section
/-!
SUPPORT. What a host access of the memory windows does, byte by byte: where a window offset leads, what a read composes,
what a write stores, when a write races; and what a reset in the middle of a command leaves.
-/

namespace Sys2Proof.Machine

/-! ## Bounds of a valid configuration and of an access -/

theorem vramSize_le {c : Config} (h : validConfig c = true) : c.vramSize ≤ 0x2000 := by
  simp [validConfig, vramOk] at h
  omega

theorem viewport_le {c : Config} (h : validConfig c = true) : c.w * c.h ≤ 65536 := by
  simp [validConfig, geometryOk] at h
  calc c.w * c.h ≤ 256 * 256 := Nat.mul_le_mul (by omega) (by omega)
    _ = 65536 := rfl

theorem Width.bytes_cases (width : Width) : width.bytes = 1 ∨ width.bytes = 2 ∨ width.bytes = 4 := by
  cases width <;> simp [Width.bytes]

/-- A window whose base is a multiple of 4 keeps alignment. -/
theorem base_mod_bytes (width : Width) {base : Nat} (a : Nat) (h : base % 4 = 0) :
    (base + a) % width.bytes = a % width.bytes := by
  rcases width.bytes_cases with e | e | e <;> rw [e] <;> omega

theorem misaligned_of_aligned {off n : Nat} (h : off % n = 0) : misaligned off n = false := by
  simp [misaligned, h]

/-! ## Where an offset leads -/

theorem regionOf_vram {off : Nat} (h1 : 0x2000 ≤ off) (h2 : off < 0x4000) : regionOf off = .vram := by
  unfold regionOf
  rw [if_neg (by omega), if_neg (by omega), if_pos (by omega)]

theorem regionOf_csb {off : Nat} (h1 : 0x20000 ≤ off) (h2 : off < 0x40000) : regionOf off = .csb := by
  unfold regionOf
  rw [if_neg (by omega), if_neg (by omega), if_neg (by omega), if_neg (by omega), if_pos (by omega)]

theorem regionOf_ifb {off : Nat} (h1 : 0x40000 ≤ off) (h2 : off < 0x50000) : regionOf off = .ifb := by
  unfold regionOf windowBytes
  rw [if_neg (by omega), if_neg (by omega), if_neg (by omega), if_neg (by omega), if_neg (by omega),
    if_pos (by omega)]

/-- An offset of the VRAM range leads to a VRAM byte or nowhere. -/
theorem at_vram (c : Config) {a : Nat} (h : a < 0x2000) :
    vramAt c (0x2000 + a) = (if a < c.vramSize then some a else none) ∧ csbAt c (0x2000 + a) = none ∧
      ifbAt c (0x2000 + a) = none := by
  have hr := regionOf_vram (off := 0x2000 + a) (by omega) (by omega)
  simp [vramAt, csbAt, ifbAt, hr]

/-- An offset of the CSB range leads to a CSB byte or nowhere. -/
theorem at_csb (c : Config) {a : Nat} (h : a < 0x20000) :
    vramAt c (0x20000 + a) = none ∧ csbAt c (0x20000 + a) = (if a < 2 * (c.w * c.h) then some a else none) ∧
      ifbAt c (0x20000 + a) = none := by
  have hr := regionOf_csb (off := 0x20000 + a) (by omega) (by omega)
  simp [vramAt, csbAt, ifbAt, hr]

/-- An offset of the IFB range leads to a cell or nowhere. -/
theorem at_ifb (c : Config) {a : Nat} (h : a < 0x10000) :
    vramAt c (0x40000 + a) = none ∧ csbAt c (0x40000 + a) = none ∧
      ifbAt c (0x40000 + a) = (if a < c.w * c.h then some a else none) := by
  have hr := regionOf_ifb (off := 0x40000 + a) (by omega) (by omega)
  simp [vramAt, csbAt, ifbAt, hr]

/-! ## Reads -/

/-- The word of an access is the little-endian sum of its bytes. -/
theorem joinBytes_littleEndian (width : Width) (b : Nat → Byte) :
    (joinBytes width b).toNat = littleEndian b width.bytes := by
  cases width
  · simp [joinBytes_w8, Width.bytes, littleEndian]
  · simp [joinBytes_w16, Width.bytes, littleEndian]
  · simp [joinBytes_w32, Width.bytes, littleEndian]

/-- An aligned read past the register window answers its bytes. -/
theorem hostRead_window {s : State} {off : Nat} {width : Width} (h : ¬ off < 0x1000)
    (ha : misaligned off width.bytes = false) :
    hostRead s off width = .next { s with
      answer := some (joinBytes width fun i => s.windowByte (off + i) (s.draws + i)), draws := s.draws + 4 } := by
  simp [hostRead, h, ha]

theorem State.windowByte_vram (s : State) {a : Nat} (h : a < 0x2000) (k : Nat) :
    s.windowByte (0x2000 + a) k = if a < s.cfg.vramSize then s.vram.read a k else 0 := by
  obtain ⟨h1, h2, h3⟩ := at_vram s.cfg h
  simp only [State.windowByte, h1, h2, h3]
  by_cases hs : a < s.cfg.vramSize <;> simp [hs]

theorem State.windowByte_csb (s : State) {a : Nat} (h : a < 0x20000) (k : Nat) :
    s.windowByte (0x20000 + a) k = if a < 2 * (s.cfg.w * s.cfg.h) then s.csb.read a k else 0 := by
  obtain ⟨h1, h2, h3⟩ := at_csb s.cfg h
  simp only [State.windowByte, h1, h2, h3]
  by_cases hs : a < 2 * (s.cfg.w * s.cfg.h) <;> simp [hs]

theorem State.windowByte_ifb (s : State) {a : Nat} (h : a < 0x10000) (k : Nat) :
    s.windowByte (0x40000 + a) k = if a < s.cfg.w * s.cfg.h then (s.hostCell a k).setWidth 8 else 0 := by
  obtain ⟨h1, h2, h3⟩ := at_ifb s.cfg h
  simp only [State.windowByte, h1, h2, h3]
  by_cases hs : a < s.cfg.w * s.cfg.h <;> simp [hs]

/-! ## Writes -/

/-- An aligned write past the register window that races with nothing stores its bytes. -/
theorem hostWrite_window {s : State} {off : Nat} {width : Width} (h : ¬ off < 0x1000)
    (ha : misaligned off width.bytes = false) (hr : s.raceIn off width.bytes = none) (v : Word) :
    hostWrite s off width v = .next (s.storeBytes off v width.bytes) := by
  simp [hostWrite, h, ha, hr]

/-- A write races with nothing exactly when none of its bytes does. -/
theorem State.raceIn_eq_none (s : State) (off n : Nat) :
    s.raceIn off n = none ↔ ∀ i, i < n → s.raceAt (off + i) = none := by
  induction n with
  | zero => simp [State.raceIn]
  | succ n ih =>
    unfold State.raceIn
    constructor
    · intro h i hi
      split at h
      · cases h
      · rename_i h1
        by_cases he : i = n
        · rw [he]; exact h
        · exact ih.mp h1 i (by omega)
    · intro h
      rw [ih.mpr fun i hi => h i (by omega)]
      exact h n (by omega)

/-- The race of a write whose first byte races is that byte's. -/
theorem State.raceIn_first {s : State} {off : Nat} {f : Fault} (h : s.raceAt off = some f) (n : Nat) :
    s.raceIn off (n + 1) = some f := by
  induction n with
  | zero => simp [State.raceIn, h]
  | succ n ih => rw [State.raceIn, ih]

/-- An aligned write past the register window whose first byte races faults. -/
theorem hostWrite_race {s : State} {off : Nat} {width : Width} {f : Fault} (h : ¬ off < 0x1000)
    (ha : misaligned off width.bytes = false) (hr : s.raceAt off = some f) (v : Word) :
    hostWrite s off width v = .fault f := by
  have e : s.raceIn off width.bytes = some f := by
    cases width <;> exact State.raceIn_first hr _
  simp [hostWrite, h, ha, e]

/-- Bytes stored where nothing is are ignored. -/
theorem State.storeBytes_nowhere (s : State) (off : Nat) (v : Word) {n : Nat}
    (h : ∀ i, i < n → vramAt s.cfg (off + i) = none ∧ csbAt s.cfg (off + i) = none) :
    s.storeBytes off v n = s := by
  induction n with
  | zero => rfl
  | succ n ih =>
    obtain ⟨h1, h2⟩ := h n (by omega)
    rw [State.storeBytes, ih fun i hi => h i (by omega)]
    simp [State.storeByte, h1, h2]

/-- Bytes stored in the VRAM range change VRAM alone: the stored bytes inside VRAM, nothing elsewhere. -/
theorem State.storeBytes_vram (s : State) (a : Nat) (v : Word) {n : Nat} (h : a + n ≤ 0x2000) :
    ∃ m, s.storeBytes (0x2000 + a) v n = { s with vram := m } ∧
      ∀ b, m.get b = if a ≤ b ∧ b < a + n ∧ b < s.cfg.vramSize then some (byteAt v (b - a)) else s.vram.get b := by
  induction n with
  | zero => exact ⟨s.vram, rfl, fun b => by rw [if_neg (by omega)]⟩
  | succ n ih =>
    obtain ⟨m, h1, h2⟩ := ih (by omega)
    obtain ⟨e1, e2, _⟩ := at_vram s.cfg (a := a + n) (by omega)
    rw [← Nat.add_assoc] at e1 e2
    rw [State.storeBytes, h1]
    by_cases hn : a + n < s.cfg.vramSize
    · refine ⟨m.set (a + n) (byteAt v n), by simp [State.storeByte, e1, hn], fun b => ?_⟩
      rw [Memory.get_set, h2]
      by_cases hb : b = a + n
      · subst hb
        rw [if_pos rfl, if_pos (by omega), Nat.add_sub_cancel_left]
      · rw [if_neg (by omega)]
        exact if_congr (by omega) rfl rfl
    · refine ⟨m, by simp [State.storeByte, e1, e2, hn], fun b => ?_⟩
      rw [h2]
      exact if_congr (by omega) rfl rfl

/-- Bytes stored in the CSB range change the CSB alone: the stored bytes inside the CSB, nothing elsewhere. -/
theorem State.storeBytes_csb (s : State) (a : Nat) (v : Word) {n : Nat} (h : a + n ≤ 0x20000) :
    ∃ m, s.storeBytes (0x20000 + a) v n = { s with csb := m } ∧
      ∀ b, m.get b =
        if a ≤ b ∧ b < a + n ∧ b < 2 * (s.cfg.w * s.cfg.h) then some (byteAt v (b - a)) else s.csb.get b := by
  induction n with
  | zero => exact ⟨s.csb, rfl, fun b => by rw [if_neg (by omega)]⟩
  | succ n ih =>
    obtain ⟨m, h1, h2⟩ := ih (by omega)
    obtain ⟨e1, e2, _⟩ := at_csb s.cfg (a := a + n) (by omega)
    rw [← Nat.add_assoc] at e1 e2
    rw [State.storeBytes, h1]
    by_cases hn : a + n < 2 * (s.cfg.w * s.cfg.h)
    · refine ⟨m.set (a + n) (byteAt v n), by simp [State.storeByte, e1, e2, hn], fun b => ?_⟩
      rw [Memory.get_set, h2]
      by_cases hb : b = a + n
      · subst hb
        rw [if_pos rfl, if_pos (by omega), Nat.add_sub_cancel_left]
      · rw [if_neg (by omega)]
        exact if_congr (by omega) rfl rfl
    · refine ⟨m, by simp [State.storeByte, e1, e2, hn], fun b => ?_⟩
      rw [h2]
      exact if_congr (by omega) rfl rfl

/-! ## Reset in the middle of a command -/

/-- Everything a reset can do: the registers take their reset values, and where it stops a command the memories are
mixed first. -/
theorem State.hostReset_cases (s : State) :
    s.hostReset = s.resetRegisters ∨
      ∃ word t, s.seq = .running word ∧ (s.useDraws (mixDraws s.cfg)).blockTurn = .next t ∧
        s.hostReset = (s.mixMemories t s.draws).resetRegisters := by
  unfold State.hostReset
  split
  · exact .inl rfl
  · rename_i word hs
    split
    · rename_i t ht
      exact .inr ⟨word, t, hs, ht, rfl⟩
    · exact .inl rfl
    · exact .inl rfl

/-- A cell of the IFB after a stopped command: the old or the new one, and the old one where the command writes no
IFB. -/
theorem State.mixMemories_ifb_get (s t : State) (k a : Nat) :
    (s.mixMemories t k).ifb.get a = s.ifb.get a ∨
      (s.runs writesIfb = true ∧ (s.mixMemories t k).ifb.get a = t.ifb.get a) := by
  unfold State.mixMemories
  dsimp only
  split
  · rename_i hr
    rw [Memory.get_fill]
    split
    · split
      · cases h : t.ifb.get a with
        | none => exact .inl (by simp)
        | some p => exact .inr ⟨hr, by simp⟩
      · exact .inl (by simp)
    · exact .inl rfl
  · exact .inl rfl

/-- A stopped command that writes no IFB leaves it as it was. -/
theorem State.mixMemories_ifb_of_none {s : State} (h : s.runs writesIfb = false) (t : State) (k : Nat) :
    (s.mixMemories t k).ifb = s.ifb := by
  simp [State.mixMemories, h]

/-- A stopped command that writes no OUT leaves it as it was. -/
theorem State.mixMemories_out_of_none {s : State} (h : s.runs writesOut = false) (t : State) (k : Nat) :
    (s.mixMemories t k).out = s.out := by
  simp [State.mixMemories, h]

/-- The canonical form and the bounds of the mixed memories. -/
theorem State.mixMemories_inv {s : State} (h : s.Inv) (t : State) (k : Nat) : (s.mixMemories t k).Inv where
  config := h.config
  ctrl := h.ctrl
  scroll := h.scroll
  lCtrl := h.lCtrl
  lScroll := h.lScroll
  seq := h.seq
  vramForm := h.vramForm
  csbForm := h.csbForm
  vramBounds := h.vramBounds
  csbBounds := h.csbBounds
  ifbForm := by
    unfold State.mixMemories
    dsimp only
    split
    · exact Memory.wf_fill h.ifbForm _ _ _
    · exact h.ifbForm
  outForm := by
    unfold State.mixMemories
    dsimp only
    split
    · exact Memory.wf_fill h.outForm _ _ _
    · exact h.outForm
  ifbBounds := by
    unfold State.mixMemories
    dsimp only
    split
    · exact Memory.within_fill h.ifbBounds _ (Nat.zero_le _) (by omega)
    · exact h.ifbBounds
  outBounds := by
    unfold State.mixMemories
    dsimp only
    split
    · exact Memory.within_fill h.outBounds _ (Nat.le_refl _) (Nat.le_refl _)
    · exact h.outBounds

end Sys2Proof.Machine
end

