-- ==== Sys2Proof/Tests/Slice0.lean ====
section
/-!
SUPPORT. The model's own tests: words from the encoding tables, effects from spec/95_test_vectors.md, ill-formed lines
that the check refuses, and for each statement with hypotheses a state that meets them.
-/

namespace Sys2Proof.Tests

open Sys2Proof.Machine

/-! ## Decoding: words written out from 30_encoding.md R72 and R74 -/

theorem test_decode_nop : decode 0b00000000_000000000000000000000000#32 = .command .nop := by decide

theorem test_decode_clear : decode 0b00000001_000000000000000000000000#32 = .command .clear := by decide

theorem test_decode_compose : decode 0b00000010_000000000000000000000000#32 = .command .compose := by decide

theorem test_decode_convert : decode 0b00000011_000000000000000000000000#32 = .command .convert := by decide

theorem test_decode_frame : decode 0b00000100_000000000000000000000000#32 = .command .frame := by decide

/-- OP, ten reserved bits set, COL 5, ROW 2, IDX 0x81. -/
theorem test_decode_unpack :
    decode 0b00010000_1111111111_101_010_10000001#32 = .command (.unpack 0x81 2 5) := by decide

theorem test_decode_lut : decode 0b00010001_0000000000000000000000_10#32 = .command (.lut 2) := by decide

/-- OP, YO 0xABC, XO 0x123. -/
theorem test_decode_resample :
    decode 0b00010010_101010111100_000100100011#32 = .command (.resample 0x123 0xABC) := by decide

theorem test_decode_expand :
    decode 0b00010011_00000000_1000000000011111#32 = .command (.expand 0x801F) := by decide

/-- The neighbours of the legal opcodes are illegal (30_encoding.md R75). -/
theorem test_decode_reserved :
    decode 0x05000000#32 = .illegal 0x05 ∧ decode 0x0F000000#32 = .illegal 0x0F ∧
    decode 0x14000000#32 = .illegal 0x14 ∧ decode 0xFF000000#32 = .illegal 0xFF := by decide

theorem test_table_words :
    decodeTableWord 32 0x10000000 = some (.unpack 0 0 0) ∧ decodeTableWord 32 0x13000000 = some (.expand 0) ∧
    decodeTableWord 32 0x05000000 = none := by decide

/-! ## Ill-formed lines (30_encoding.md R79) -/

theorem test_unpack_idx_too_wide : (CommandLine.unpack 256 0 0).wellFormed = false := by decide

theorem test_unpack_row_too_wide : (CommandLine.unpack 0 8 0).wellFormed = false := by decide

theorem test_unpack_col_too_wide : (CommandLine.unpack 0 0 8).wellFormed = false := by decide

theorem test_lut_pix_too_wide : (CommandLine.lut 4).wellFormed = false := by decide

theorem test_resample_xo_too_wide : (CommandLine.resample 4096 0).wellFormed = false := by decide

theorem test_resample_yo_too_wide : (CommandLine.resample 0 4096).wellFormed = false := by decide

theorem test_expand_sample_too_wide : (CommandLine.expand 65536).wellFormed = false := by decide

theorem test_ill_formed_line_does_not_assemble : (CommandLine.lut 4).assemble = none := by decide

/-- 95_test_vectors.md V1: `UNPACK 1, 3, 7` is 0x10003B01. -/
theorem test_assemble_unpack : (CommandLine.unpack 1 3 7).assemble = some 0x10003B01#32 := by decide

/-! ## Small states -/

/-- A small valid build: viewport 3 by 2, output 4 by 3, rows flipped and shifted by 1, OUT at 0x100, window at
0x30000. -/
def tiny : Config :=
  { Config.default with
    w := 3, h := 2, wo := 4, ho := 3, outStride := 5, outRows := 5, rowOffset := 1, rowFlip := true,
    outBase := 0x100, blockBase := 0x30000 }

/-- The idle machine on the small build, with turns to take. -/
def idle (turns : List Turn) : State := { State.reset with cfg := tiny, inbox := turns }

/-- The small machine running a command. -/
def running (i : Instr) (turns : List Turn) : State := { idle turns with seq := .running (encode i) }

/-- What an outcome's next state satisfies. -/
def after (o : Host.Outcome State Fault Refusal) (p : State → Bool) : Bool :=
  match o with
  | .next t => p t
  | .fault _ => false
  | .refused _ => false

theorem test_tiny_valid : validConfig tiny = true := by decide

theorem test_default_valid : validConfig Config.default = true := by decide

/-! ## Effects: 95_test_vectors.md -/

/-- V1: under `SETMODE 1, 0, 0, 0`, `UNPACK 1, 3, 7` gives 0x00160002. -/
theorem test_unpack_v1 :
    after (exec (.unpack 1 3 7) { State.reset with lCtrl := 1, vram := [(0x16, 0x80), (0x17, 0x01)] })
      (fun t => t.result == 0x00160002#32) = true := by decide

/-- V1: signed `UNPACK 0x80, 0, 0` gives 0x08000001. -/
theorem test_unpack_signed :
    after (exec (.unpack 0x80 0 0) { State.reset with vram := [(0x800, 0xFF), (0x801, 0x00)] })
      (fun t => t.result == 0x08000001#32) = true := by decide

/-- V1: the mixed pair `lo = 0xB1`, `hi = 0x65` gives 1, 2, 3, 1, 0, 2, 0, 3. -/
theorem test_unpack2_v1 :
    (List.range 8).map (fun x => (unpack2 0xB1 0x65 x).toNat) = [1, 2, 3, 1, 0, 2, 0, 3] := by decide

/-- V1: the seven tile addresses. -/
theorem test_tile_addresses :
    [tileAddr Config.default 0x00 true, tileAddr Config.default 0x80 true, tileAddr Config.default 0xFF true,
      tileAddr Config.default 0x00 false, tileAddr Config.default 0x7F false, tileAddr Config.default 0x80 false,
      tileAddr Config.default 0xFF false] = [0x0000, 0x0800, 0x0FF0, 0x1000, 0x17F0, 0x0800, 0x0FF0] := by decide

/-- T3, V2: with SCX 255 viewport (0, 0) shows canvas (255, 0), map cell (0, 31), column 7, and viewport (1, 0) shows
canvas (0, 0). Map cell (0, 31) names tile 1 (low plane 0x01 in row 0), map cell (0, 0) tile 2 (high plane 0x80). -/
theorem test_compose_scroll :
    after (exec .compose { idle [] with
        lCtrl := 1, lScroll := 0x000000FF,
        vram := [(0x10, 0x01), (0x11, 0x00), (0x20, 0x00), (0x21, 0x80), (0x1800, 2), (0x181F, 1)] })
      (fun t => t.ifb.get 0 == some 1#2 && t.ifb.get 1 == some 2#2) = true := by decide

/-- V2: CLEAR with BGIDX 2 fills the last cell and no more. -/
theorem test_clear_v2 :
    after (exec .clear { idle [] with lCtrl := 0x21 })
      (fun t => t.ifb.get 0 == some 2#2 && t.ifb.get 5 == some 2#2 && t.ifb.get 6 == none) = true := by decide

/-- V3: `LUT 1` and `LUT 3`. -/
theorem test_lut_v3 :
    after (exec (.lut 1) State.reset) (fun t => t.result == 0xAAAAAAAA#32) = true ∧
    after (exec (.lut 3) State.reset) (fun t => t.result == 0x00000000#32) = true := by decide

/-- V4: `RESAMPLE 239, 215` and `RESAMPLE 4095, 4095`. -/
theorem test_resample_v4 :
    after (exec (.resample 239 215) State.reset) (fun t => t.result == 0x008F009F#32) = true ∧
    after (exec (.resample 4095 4095) State.reset) (fun t => t.result == 0x0AAA0AAA#32) = true := by decide

/-- V5: 0x1234 under the four channel orders. -/
theorem test_expand_v5 :
    [OutPack.rgba8888, .argb8888, .abgr8888, .bgra8888].map
        (fun o => expandPixel { Config.default with outPack := o } 0x1234) =
      [0xA08820FF#32, 0xFFA08820#32, 0xFF2088A0#32, 0x2088A0FF#32] := by decide

/-- T6: the red field gives 0xF8 and not 0xFF. -/
theorem test_expand_t6 :
    after (exec (.expand 0x001F) State.reset) (fun t => t.result == 0xF80000FF#32) = true := by decide

/-- V4: row placement with `Ho = 216`, flipped and shifted by 16. -/
theorem test_place_row_v4 :
    placeRow { Config.default with rowFlip := true, rowOffset := 16 } 0 = 231 ∧
    placeRow { Config.default with rowFlip := true, rowOffset := 16 } 215 = 16 ∧
    placeRow { Config.default with rowOffset := 16 } 0 = 16 := by decide

/-- 43_nearest_neighbor_resampler.md R152, R153: on the small build output row 0 goes to OUT row 3; cell (0, 0) holds 1,
so the word at 0x100 + 4 * 15 is 0xAAAAAAAA. -/
theorem test_convert_mono :
    after (exec .convert { idle [] with ifb := [(0, 1)] })
      (fun t => t.out.get (0x100 + 60) == some 0xAA#8 && t.out.get (0x100 + 63) == some 0xAA#8) = true := by decide

/-- P3: colour mode, a red sample: the word is 0xF80000FF, alpha at the lowest address. -/
theorem test_convert_colour :
    after (exec .convert { idle [] with lCtrl := 4, csb := [(0, 0x1F), (1, 0x00)] })
      (fun t => t.out.get (0x100 + 60) == some 0xFF#8 && t.out.get (0x100 + 63) == some 0xF8#8) = true := by decide

/-- P1 in small: FRAME draws tile 1 (row 0xF0, 0xCC: pixels 3, 3, 1, ...) from map cell (0, 0): the pixel (0, 0) is 3, so
its output word is palette entry 3, 0x00000000. -/
theorem test_frame_p1 :
    after (exec .frame { idle [] with lCtrl := 1, vram := [(0x10, 0xF0), (0x11, 0xCC), (0x1800, 1)] })
      (fun t => t.ifb.get 0 == some 3#2 && t.ifb.get 2 == some 1#2 && t.out.get (0x100 + 60) == some 0x00#8) =
      true := by decide

theorem test_nop : after (exec .nop (running .nop [])) (fun t => t.seq == .idle) = true := by decide

/-! ## Host accesses: 95_test_vectors.md V6, V7 -/

/-- V6: a reserved opcode sets ILL, STATUS 0x100. -/
theorem test_ill : after (step (idle [wr32 tiny .cmd 0x05000000])) (fun t => t.status == 0x100#32) = true := by decide

/-- V6: a reserved opcode written while running sets OVR and not ILL. -/
theorem test_ovr :
    after (step (running .frame [wr32 tiny .cmd 0xFF000000])) (fun t => t.status == 0x201#32) = true := by decide

/-- V6: with STATUS 0x300, writing 0x200 leaves 0x100. -/
theorem test_clear_ovr :
    after (step { idle [wr32 tiny .status 0x00000200] with ill := true, ovr := true })
      (fun t => t.status == 0x100#32) = true := by decide

/-- V6: a read of offset 0x14 returns 0; V3: PAL1 reads 0xAAAAAAAA. -/
theorem test_register_reads :
    after (step (idle [.read (0x30000 + 0x14) .w32])) (fun t => t.answer == some 0#32) = true ∧
    after (step (idle [rd32 tiny .pal1])) (fun t => t.answer == some 0xAAAAAAAA#32) = true := by decide

/-- 10_state.md R24: reserved bits of CTRL stay 0. -/
theorem test_ctrl_reserved :
    after (step (idle [wr32 tiny .ctrl 0xFFFFFFFF])) (fun t => t.ctrl == 0x37#32) = true := by decide

/-- 20_memory.md R52, R53: a 16-bit write stores the low byte at the lower address. -/
theorem test_vram_write :
    after (step (idle [.write (0x30000 + 0x2000 + 4) .w16 0xABCD]))
      (fun t => t.vram == [(4, 0xCD#8), (5, 0xAB#8)]) = true := by decide

/-- 20_memory.md R55, R58: a 32-bit CSB read composes two samples, the lower address lower. -/
theorem test_csb_read :
    after (step { idle [.read 0x50004 .w32] with csb := [(4, 0x34), (5, 0x12), (6, 0x78), (7, 0x56)] })
      (fun t => t.answer == some 0x56781234#32) = true := by decide

/-- 20_memory.md R61: two reads of an OUT word that nothing has written agree while Idle. -/
theorem test_out_reads_agree :
    ∃ w, step (idle [.outRead 0x100, .outRead 0x100]) = .next { idle [.outRead 0x100] with answer := some w } ∧
      step { idle [.outRead 0x100] with answer := some w } = .next { idle [] with answer := some w } := ⟨_, rfl, rfl⟩

/-- 20_memory.md R54: a cell reads zero-extended. -/
theorem test_ifb_read :
    after (step { idle [rd8Ifb tiny 1 1] with ifb := [(4, 3)] }) (fun t => t.answer == some 3#32) = true := by decide

/-- V7: reset of an idle block clears the registers. -/
theorem test_reset :
    after (step { idle [.reset] with ctrl := 0x37, result := 7, ill := true, vram := [(0, 1)] })
      (fun t => t.ctrl == 0#32 && t.result == 0#32 && !t.ill && t.vram == [(0, 1#8)]) = true := by decide

/-- 70_reset_and_hazards.md R221: a reset that stops a probe leaves the IFB and OUT as they were. -/
theorem test_reset_stops_probe :
    after (step { running (.lut 0) [.reset] with ifb := [(0, 3)], out := [(0x100, 9)], result := 4 })
      (fun t => t.ifb == [(0, 3#2)] && t.out == [(0x100, 9#8)] && t.result == 0#32 && t.seq == .idle) = true := by decide

/-- The machine after reset performs a placed word in its next step. -/
theorem test_placed_word :
    after (step (State.reset.withFetchWord 32 0x11000001)) (fun t => t.result == 0xAAAAAAAA#32 && t.seq == .idle) =
      true := by decide

/-- 30_encoding.md R81: SETMODE and SETSCROLL are one register write each, CLRERR writes 0x300 to STATUS. -/
theorem test_pseudo_lines :
    setMode tiny 1 1 1 3 = .write 0x30000 .w32 0x37 ∧ setScroll tiny 0xFF 0x02 = .write 0x30004 .w32 0x2FF ∧
    clrErr tiny = .write 0x3000C .w32 0x300 := by decide

/-- 30_encoding.md R80, R81: `RUN LUT 1` with one busy poll, and FILL8 of two bytes. -/
theorem test_run_and_fill_lines :
    runLine tiny (.lut 1) 1 =
      [.write 0x30008 .w32 0x11000001, .read 0x3000C .w32, .pass, .read 0x3000C .w32] ∧
    fill8Vram tiny 4 6 9 = [.write 0x32004 .w8 9, .write 0x32005 .w8 9] := by decide

/-! ## Witnesses: for each statement with hypotheses, what meets them -/

theorem witness_ReservedOpcodesAreIllegal :
    (0x05000000#32).toNat / 2 ^ 24 = 0x05 ∧ (0x0FFFFFFF#32).toNat / 2 ^ 24 = 0x0F ∧
    (0x14000000#32).toNat / 2 ^ 24 = 0x14 ∧ (0xFFFFFFFF#32).toNat / 2 ^ 24 = 0xFF ∧
    (0x04FFFFFF#32).toNat / 2 ^ 24 = 0x04 ∧ (0x10000000#32).toNat / 2 ^ 24 = 0x10 ∧
    (0x13FFFFFF#32).toNat / 2 ^ 24 = 0x13 := by decide

theorem witness_AssembledLinesDecode :
    (CommandLine.unpack 255 7 7).wellFormed = true ∧ (CommandLine.resample 4095 4095).wellFormed = true ∧
    (CommandLine.expand 65535).wellFormed = true ∧ (CommandLine.lut 3).wellFormed = true ∧
    (CommandLine.lut 4).wellFormed = false := by decide

theorem witness_InvalidConfigurationsAreRefused :
    validConfig (idle []).cfg = true ∧ validConfig { tiny with w := 0 } = false ∧
    validConfig { tiny with w := 257 } = false ∧ validConfig { tiny with wo := 4097 } = false ∧
    validConfig { tiny with sbase := 2047 } = false ∧ validConfig { tiny with outRows := 3 } = false ∧
    validConfig { tiny with outBase := 2 } = false ∧ validConfig { tiny with blockBase := 4 } = false := by decide

theorem witness_StepPerformsTheRunningCommand :
    validConfig (running .frame []).cfg = true ∧ (running .frame []).seq = .running 0x04000000#32 ∧
    decode 0x04000000#32 = .command .frame ∧ (running .frame []).inbox = [] ∧
    (running .frame [.pass, .reset]).inbox = .pass :: [.reset] := by decide

theorem witness_IdleBlockKeepsEverything :
    validConfig (idle []).cfg = true ∧ (idle []).seq = .idle ∧ (idle []).inbox = [] ∧
    (idle [.pass]).inbox = .pass :: [] := by decide

theorem witness_PlacedWordRuns :
    validConfig State.reset.cfg = true ∧ decodeTableWord 32 0x12FFFFFF = some (.resample 4095 4095) := by decide

theorem witness_CommandIsAccepted :
    validConfig (idle []).cfg = true ∧ (idle []).seq = .idle ∧ decode 0x04000000#32 = .command .frame ∧
    (idle [wr32 tiny .cmd 0x04000000]).inbox = wr32 (idle []).cfg .cmd 0x04000000 :: [] := by decide

theorem witness_ReservedOpcodeRaisesIll :
    (0x05 ≤ (0x05000000#32).toNat / 2 ^ 24 ∧ (0x05000000#32).toNat / 2 ^ 24 ≤ 0x0F ∨
      0x14 ≤ (0x05000000#32).toNat / 2 ^ 24) ∧
    (0x05 ≤ (0xFF000000#32).toNat / 2 ^ 24 ∧ (0xFF000000#32).toNat / 2 ^ 24 ≤ 0x0F ∨
      0x14 ≤ (0xFF000000#32).toNat / 2 ^ 24) ∧
    validConfig (idle []).cfg = true ∧ (idle []).seq = .idle ∧
    (idle [wr32 tiny .cmd 0xFF000000]).inbox = wr32 (idle []).cfg .cmd 0xFF000000 :: [] := by decide

theorem witness_BusyWriteRaisesOvr :
    validConfig (running .nop []).cfg = true ∧ (running .nop []).seq = .running 0#32 ∧
    (running .nop [wr32 tiny .cmd 0xFF000000]).inbox = wr32 (running .nop []).cfg .cmd 0xFF000000 :: [] := by decide

theorem witness_ErrorBitsAreSticky :
    after (step { idle [wr32 tiny .status 0x100] with ill := true }) (fun t => !t.ill) = true ∧
    after (step { idle [.reset] with ill := true, ovr := true }) (fun t => !t.ill && !t.ovr) = true ∧
    after (step { idle [wr32 tiny .status 0x200] with ovr := true }) (fun t => !t.ovr) = true ∧
    after (step (idle [wr32 tiny .cmd 0x14000000])) (fun t => t.ill) = true ∧
    after (step (running .nop [wr32 tiny .cmd 0])) (fun t => t.ovr) = true := by decide

theorem witness_StatusWriteClears :
    validConfig (idle []).cfg = true ∧
    (idle [wr32 tiny .status 0x300]).inbox = wr32 (idle []).cfg .status 0x300 :: [] := by decide

theorem witness_ModeWritesSetTheirFields :
    validConfig (running .frame []).cfg = true ∧
    (running .frame [wr32 tiny .ctrl 0xFFFFFFFF]).inbox = wr32 (running .frame []).cfg .ctrl 0xFFFFFFFF :: [] ∧
    (idle [wr32 tiny .scroll 0xFFFFFFFF]).inbox = wr32 (idle []).cfg .scroll 0xFFFFFFFF :: [] := by decide

theorem witness_PaletteRegistersAreReadOnly :
    validConfig (idle []).cfg = true ∧ (idle []).cfg.palette.entry3 = 0x00000000#32 ∧
    (idle [rd32 tiny .pal3]).inbox = rd32 (idle []).cfg .pal3 :: [] ∧
    (idle [wr32 tiny .pal0 1]).inbox = wr32 (idle []).cfg .pal0 1 :: [] := by decide

theorem witness_UnlistedRegistersReadZero :
    validConfig (idle []).cfg = true ∧ (0xFFC < 0x1000 ∧ 0xFFC % 4 = 0) ∧
    0xFFC ∉ [0x00, 0x04, 0x08, 0x0C, 0x10, 0x20, 0x24, 0x28, 0x2C] ∧
    0x14 ∉ [0x00, 0x04, 0x08, 0x0C, 0x10, 0x20, 0x24, 0x28, 0x2C] ∧
    (idle [.read 0x30FFC .w32]).inbox = .read ((idle []).cfg.blockBase + 0xFFC) .w32 :: [] ∧
    (idle [.write 0x30014 .w32 9]).inbox = .write ((idle []).cfg.blockBase + 0x14) .w32 9 :: [] := by decide

theorem witness_RegistersReadTheirValues :
    validConfig (running .nop []).cfg = true ∧
    (∀ r ∈ [HostRegister.ctrl, .scroll, .cmd, .result, .status],
      (idle [rd32 tiny r]).inbox = rd32 (idle []).cfg r :: []) ∧
    (idle [wr32 tiny .result 5]).inbox = wr32 (idle []).cfg .result 5 :: [] := by decide

theorem witness_BadAccessesAreRefused :
    validConfig (idle []).cfg = true ∧ (¬ (Width.w32 = .w32 ∧ 0xFFE % 4 = 0)) ∧
    (¬ (Width.w8 = .w32 ∧ 0 % 4 = 0)) ∧ 0x2001 % Width.w16.bytes ≠ 0 ∧ 0x4FFFE % Width.w32.bytes ≠ 0 ∧
    (idle [.read 0x30FFE .w32]).inbox = .read ((idle []).cfg.blockBase + 0xFFE) .w32 :: [] ∧
    (idle [.write 0x7FFFE .w32 0]).inbox = .write ((idle []).cfg.blockBase + 0x4FFFE) .w32 0 :: [] := by decide

theorem witness_VramWritesStoreLittleEndian :
    validConfig (running .convert []).cfg = true ∧
    (running .convert [.write 0x33FFC .w32 1]).inbox =
      .write ((running .convert []).cfg.blockBase + 0x2000 + 0x1FFC) .w32 1 :: [] ∧
    0x1FFC < tiny.vramSize ∧ 0x1FFC % Width.w32.bytes = 0 ∧ (running .convert []).runs readsVram = false := by decide

theorem witness_VramReadsComposeLittleEndian :
    validConfig (idle []).cfg = true ∧
    (idle [.read 0x33FFE .w16]).inbox = .read ((idle []).cfg.blockBase + 0x2000 + 0x1FFE) .w16 :: [] ∧
    0x1FFE < tiny.vramSize ∧ 0x1FFE % Width.w16.bytes = 0 ∧
    Memory.get [(0x1FFE, 1#8), (0x1FFF, 2#8)] 0x1FFF = some 2#8 ∧
    littleEndian (fun i => if i = 0 then 1#8 else 2#8) 2 = 0x0201 := by decide

/-- A build whose viewport is 3 by 1: the aligned word at the last CSB sample reaches past the last byte. -/
theorem witness_CsbReadsAndWritesAreLittleEndian :
    validConfig { tiny with h := 1 } = true ∧ 4 < 2 * (3 * 1) ∧ 4 % Width.w32.bytes = 0 ∧ 2 * (3 * 1) ≤ 4 + 3 ∧
    validConfig (running .compose []).cfg = true ∧
    (running .compose []).runs (readsCsb (running .compose []).cmode) = false ∧
    (running .compose [.write 0x50008 .w32 7]).inbox =
      .write ((running .compose []).cfg.blockBase + 0x20000 + 8) .w32 7 :: [] ∧
    8 < 2 * (tiny.w * tiny.h) ∧ 8 % Width.w32.bytes = 0 ∧
    (running .compose [wr16Csb tiny 2 1 0x7FFF]).inbox = wr16Csb (running .compose []).cfg 2 1 0x7FFF :: [] ∧
    2 < tiny.w ∧ 1 < tiny.h ∧ (0, 0) ≠ (2, 1) ∧
    (idle [.read 0x5000B .w8]).inbox = .read ((idle []).cfg.blockBase + 0x20000 + 11) .w8 :: [] ∧
    11 < 2 * (tiny.w * tiny.h) ∧ Memory.get [(11, 5#8)] 11 = some 5#8 := by decide

theorem witness_IfbWindowIsReadOnly :
    validConfig (running .clear []).cfg = true ∧ 2 < tiny.w ∧ 1 < tiny.h ∧
    (running .clear [rd8Ifb tiny 2 1]).inbox = rd8Ifb (running .clear []).cfg 2 1 :: [] ∧
    (idle []).runs writesIfb = false ∧ Memory.get [(5, 3#2)] (1 * tiny.w + 2) = some 3#2 ∧
    (idle [.read 0x70004 .w32]).inbox = .read ((idle []).cfg.blockBase + 0x40000 + 4) .w32 :: [] ∧
    4 < tiny.w * tiny.h ∧ 4 % Width.w32.bytes = 0 ∧ tiny.w * tiny.h ≤ 4 + 2 ∧ 0x4FFFC % Width.w32.bytes = 0 ∧
    (idle [.write 0x7FFFC .w32 0]).inbox = .write ((idle []).cfg.blockBase + 0x4FFFC) .w32 0 :: [] := by decide

theorem witness_UnmappedOffsetsReadZero :
    validConfig (idle []).cfg = true ∧
    (∀ i, i < Width.w32.bytes → 0x1000 ≤ 0x1FFB + i ∧ 0x1FFB + i < 0x2000) ∧ 0x1FFB % Width.w32.bytes ≠ 0 ∧
    (∀ i, i < Width.w32.bytes → 0x20000 + 2 * (tiny.w * tiny.h) ≤ 0x2000C + i ∧ 0x2000C + i < 0x40000) ∧
    0x2000C % Width.w32.bytes = 0 ∧
    (∀ i, i < Width.w16.bytes → 0x40000 + tiny.w * tiny.h ≤ 0x40006 + i ∧ 0x40006 + i < 0x50000) ∧
    0x40006 % Width.w16.bytes = 0 ∧
    (idle [.read 0x70006 .w16]).inbox = .read ((idle []).cfg.blockBase + 0x40006) .w16 :: [] ∧
    (idle [.write 0x31FFB .w32 1]).inbox = .write ((idle []).cfg.blockBase + 0x1FFB) .w32 1 :: [] := by decide

theorem witness_RacingWritesFault :
    validConfig tiny = true ∧ (running .compose []).seq = .running 0x02000000#32 ∧
    decode 0x02000000#32 = .command .compose ∧ 0x1FFC % Width.w32.bytes = 0 ∧ 3 < Width.w32.bytes ∧
    0x1FFC + 3 < tiny.vramSize ∧
    step (running .compose [.write (0x30000 + 0x2000 + 0x1FFC) .w32 0]) = .fault .vramRace ∧
    step { running .frame [.write (0x30000 + 0x20000 + 10) .w16 0] with lCtrl := 4 } = .fault .csbRace := by
  refine ⟨by decide, by decide, by decide, by decide, by decide, by decide, rfl, rfl⟩

theorem witness_ReadsHaveNoSideEffect :
    after (step (idle [rd32 tiny .ctrl])) (fun _ => true) = true ∧
    after (step (idle [.outRead 0x100])) (fun _ => true) = true ∧
    after (step (running .convert [.outRead 0x160])) (fun _ => true) = true := by decide

theorem witness_OutReadsSeeOldOrNew :
    validConfig (running .convert []).cfg = true ∧ 4 < tiny.outStride ∧ 4 < tiny.outRows ∧
    (running .convert [.outRead 0x160]).inbox = .outRead (outAddr (running .convert []).cfg 4 4) :: [] ∧
    decode (encode .convert) = .command .convert ∧
    (running .compose [.outRead 0x100]).inbox = .outRead (outAddr (running .compose []).cfg 0 0) :: [] ∧
    (running .compose []).runs writesOut = false ∧
    (running .nop [.outRead 0x100]).inbox = .outRead (outAddr (idle []).cfg 0 0) :: [] ∧
    (running .nop []).runs writesOut = false ∧ (running .nop []).out = (idle []).out ∧
    (∀ i, i < 4 → Memory.get [(0x100, 0x78#8), (0x101, 0x56#8), (0x102, 0x34#8), (0x103, 0x12#8)] (0x100 + i) =
      some (BitVec.ofNat 8 ((0x12345678#32).toNat / 256 ^ i))) := by decide

theorem witness_OutsideWritesStoreOutWords :
    validConfig (running .compose []).cfg = true ∧ 4 < tiny.outStride ∧ 4 < tiny.outRows ∧
    (running .compose []).runs writesOut = false ∧
    (running .compose [.outWrite 0x160 7]).inbox = .outWrite (outAddr (running .compose []).cfg 4 4) 7 :: [] := by
  decide

theorem witness_UnpackTakesOneBitOfEachPlane : (unpack2 0x01 0x80 0).toNat = 2 ∧ (unpack2 0x01 0x80 7).toNat = 1 := by
  decide

theorem witness_TileReadsStayInTheirRegion : validConfig Config.default = true ∧ (7 : Nat) ≤ 7 ∧
    tileAddr Config.default 0xFF true + 2 * 7 + 1 = 0x0FFF ∧
    tileAddr Config.default 0x80 false + 2 * 7 + 1 = 0x080F := by decide

theorem witness_UnpackReturnsAddressAndPixel :
    validConfig (idle []).cfg = true ∧ Memory.get [(0xFFE, 1#8), (0xFFF, 1#8)] 0xFFE = some 1#8 ∧
    Memory.get [(0xFFE, 1#8), (0xFFF, 1#8)] (0xFFE + 1) = some 1#8 := by decide

theorem witness_ComposeShowsTheScrolledCanvas :
    2 < tiny.w ∧ 1 < tiny.h ∧ Memory.get [(0x1000, 0xFF#8), (0x1001, 0#8), (0x1800, 0#8)] (0x1800 + 32 * 0 + 0) = some 0#8 ∧
    Memory.get [(0x1000, 0xFF#8), (0x1001, 0#8), (0x1800, 0#8)] (tileAddr tiny 0 false + 2 * 0) = some 0xFF#8 ∧
    Memory.get [(0x1000, 0xFF#8), (0x1001, 0#8), (0x1800, 0#8)] (tileAddr tiny 0 false + 2 * 0 + 1) = some 0#8 := by decide

theorem witness_ClearFillsTheIfb : 2 < tiny.w ∧ 1 < tiny.h ∧ tiny.w * tiny.h ≤ 6 := by decide

theorem witness_ComposeIsItsLoop :
    validConfig (idle []).cfg = true ∧ (idle []).ifb.wf ∧ (∃ t, exec .compose (idle []) = .next t) :=
  ⟨by decide, List.Pairwise.nil, ⟨_, rfl⟩⟩

theorem witness_ClearIsItsLoop :
    ({ idle [] with ifb := [(0, 1), (3, 2)] } : State).ifb.wf ∧
    (∃ t, exec .clear { idle [] with ifb := [(0, 1), (3, 2)] } = .next t) := ⟨by decide, ⟨_, rfl⟩⟩

theorem witness_ClearBeforeComposeIsUnseen :
    (idle []).ifb.wf ∧ (∃ t u v, exec .clear (idle []) = .next t ∧ exec .compose t = .next u ∧
      exec .compose (idle []) = .next v) := ⟨List.Pairwise.nil, ⟨_, _, _, rfl, rfl, rfl⟩⟩

theorem witness_LutReturnsThePaletteEntry :
    (0#2).toNat = 0 ∧ (1#2).toNat = 1 ∧ (2#2).toNat = 2 ∧ (3#2).toNat = 3 ∧ 4194303 < 2 ^ 22 := by decide

theorem witness_SourceCoordinatesStayInside :
    validConfig tiny = true ∧ tiny.w < tiny.wo ∧ validConfig { tiny with wo := 2 } = true ∧
    ({ tiny with wo := 2 } : Config).wo < ({ tiny with wo := 2 } : Config).w ∧ sourceX tiny 3 = 2 := by decide

theorem witness_RowPlacementIsABijection :
    validConfig tiny = true ∧ validConfig Config.default = true ∧ 2 < tiny.ho ∧ placeRow tiny 2 = tiny.rowOffset ∧
    placeRow tiny 0 = 3 ∧ 3 < tiny.rowOffset + tiny.ho := by decide

theorem witness_ConvertColoursEveryOutputPixel :
    validConfig (idle []).cfg = true ∧ 3 < tiny.wo ∧ 2 < tiny.ho ∧ (idle []).lCtrl.getLsbD 2 = false ∧
    ({ idle [] with lCtrl := 4 } : State).lCtrl.getLsbD 2 = true ∧ (1 * tiny.w + 2) = 5 ∧
    Memory.get [(5, 3#2)] 5 = some 3#2 ∧ Memory.get [(10, 0x1F#8), (11, 0#8)] (2 * 5) = some 0x1F#8 ∧
    Memory.get [(10, 0x1F#8), (11, 0#8)] (2 * 5 + 1) = some 0#8 := by decide

theorem witness_ConvertLeavesOtherOutBytes :
    validConfig (idle []).cfg = true ∧ (∃ t, exec .convert (idle []) = .next t) ∧
    (∃ t, exec .frame (idle []) = .next t) ∧
    (∀ xo yo, xo < tiny.wo → yo < tiny.ho →
      outAddr tiny 4 1 < outAddr tiny xo (placeRow tiny yo) ∨ outAddr tiny xo (placeRow tiny yo) + 4 ≤ outAddr tiny 4 1) := by
  refine ⟨by decide, ⟨_, rfl⟩, ⟨_, rfl⟩, fun xo yo hx hy => ?_⟩
  have h : ∀ x : Fin 4, ∀ y : Fin 3,
      outAddr tiny 4 1 < outAddr tiny x (placeRow tiny y) ∨
        outAddr tiny x (placeRow tiny y) + 4 ≤ outAddr tiny 4 1 := by decide
  exact h ⟨xo, hx⟩ ⟨yo, hy⟩

theorem witness_ConvertIsItsLoop :
    validConfig (idle []).cfg = true ∧ (idle []).out.wf ∧ (∃ t, exec .convert (idle []) = .next t) :=
  ⟨by decide, List.Pairwise.nil, ⟨_, rfl⟩⟩

theorem witness_NopOnlyLatches :
    validConfig (idle []).cfg = true ∧ (idle []).seq = .idle ∧ 0x00FFFFFF < 2 ^ 24 ∧
    (idle [issueLine tiny .nop, .pass]).inbox = issueLine (idle []).cfg .nop :: .pass :: [] ∧
    (running .frame [issueLine tiny .nop]).seq = .running 0x04000000#32 ∧
    (running .frame [issueLine tiny .nop]).inbox = issueLine (running .frame []).cfg .nop :: [] := by decide

theorem witness_FrameEqualsTwoRuns : validConfig (idle []).cfg = true ∧ (idle []).seq = .idle := by decide

theorem witness_FrameDrawsTheBackground :
    validConfig (idle []).cfg = true ∧ (idle []).lCtrl.getLsbD 2 = false ∧ 3 < tiny.wo ∧ 2 < tiny.ho ∧
    Memory.get [(0x1000, 0xFF#8), (0x1001, 0#8), (0x1800, 0#8)] (0x1800 + 32 * 0 + 0) = some 0#8 ∧
    Memory.get [(0x1000, 0xFF#8), (0x1001, 0#8), (0x1800, 0#8)] (tileAddr tiny 0 false + 2 * 0) = some 0xFF#8 ∧
    Memory.get [(0x1000, 0xFF#8), (0x1001, 0#8), (0x1800, 0#8)] (tileAddr tiny 0 false + 2 * 0 + 1) = some 0#8 := by decide

/-- A machine whose VRAM and CSB are written whole, in colour mode. -/
def filled : State :=
  { idle [] with
    lCtrl := 4, vram := Memory.fill [] 0 0x2000 fun _ => some 0, csb := Memory.fill [] 0 12 fun _ => some 0 }

theorem witness_FrameDependsOnlyOnItsInputs :
    validConfig filled.cfg = true ∧ filled.lCtrl.getLsbD 2 = true ∧
    (∀ a, a < filled.cfg.vramSize → Written filled.vram a) ∧
    (∀ a, a < 2 * (filled.cfg.w * filled.cfg.h) → Written filled.csb a) ∧
    ({ filled with ifb := [(0, 1)], out := [(0x100, 7)] } : State).ifb ≠ filled.ifb ∧
    (∃ t, exec .frame filled = .next t) := by
  refine ⟨test_tiny_valid, by decide, fun a h => ?_, fun a h => ?_, fun h => ?_, ⟨_, rfl⟩⟩
  · have h' : a < 0x2000 := h
    simp [Written, filled, Memory.get_fill, h']
  · have h' : a < 12 := h
    simp [Written, filled, Memory.get_fill, h']
  · exact absurd h (by simp [filled, idle, State.reset])

theorem witness_LatchesShieldTheCommand : ∃ t, exec .frame (idle []) = .next t := ⟨_, rfl⟩

theorem witness_ConfigurationNeverChanges : ∃ t, step (running .frame []) = .next t := ⟨_, rfl⟩

theorem witness_OnlyProbesChangeResult :
    after (step (running (.lut 0) [])) (fun t => t.result == 0xFFFFFFFF#32) = true ∧
    after (step { idle [.reset] with result := 5 }) (fun t => t.result == 0#32) = true ∧
    (running (.lut 0) []).result = 0#32 := by decide

theorem witness_LatchesLoadAtAcceptance :
    after (step { idle [issueLine tiny .nop] with ctrl := 1, scroll := 2 })
      (fun t => t.lCtrl == 1#32 && t.lScroll == 2#32) = true ∧
    after (step { idle [.reset] with lCtrl := 1, lScroll := 2 })
      (fun t => t.lCtrl == 0#32 && t.lScroll == 0#32) = true := by decide

theorem witness_MemoriesHaveTheirWriters :
    after (step (idle [wr8Vram tiny 0 1])) (fun t => t.vram == [(0, 1#8)]) = true ∧
    after (step (idle [wr16Csb tiny 0 0 1])) (fun t => t.csb == [(0, 1#8), (1, 0#8)]) = true ∧
    after (step (running .clear [])) (fun t => t.ifb.get 0 == some 0#2) = true ∧
    after (step { running .convert [] with ifb := [(0, 0)] }) (fun t => t.out.get (0x100 + 60) == some 0xFF#8) = true ∧
    after (step (idle [.outWrite 0x100 1])) (fun t => t.out.get 0x100 == some 1#8) = true := by decide

theorem witness_ResetOfAnIdleBlock :
    validConfig (idle []).cfg = true ∧ (idle []).seq = .idle ∧ (idle [.reset]).inbox = .reset :: [] := by decide

/-- The small machine meets the invariant, idle or running. -/
theorem tiny_inv (i : Instr) (turns : List Turn) (h : decode (encode i) = .command i) : (running i turns).Inv where
  config := show validConfig tiny = true from test_tiny_valid
  ctrl := show ctrlClean 0#32 = true by decide
  scroll := show scrollClean 0#32 = true by decide
  lCtrl := show ctrlClean 0#32 = true by decide
  lScroll := show scrollClean 0#32 = true by decide
  seq := by simp [State.runsCommand, running, h]
  vramForm := List.Pairwise.nil
  csbForm := List.Pairwise.nil
  ifbForm := List.Pairwise.nil
  outForm := List.Pairwise.nil
  vramBounds := rfl
  csbBounds := rfl
  ifbBounds := rfl
  outBounds := rfl

theorem witness_ResetStopsACommand :
    (running .frame [.reset]).Inv ∧ (running .frame [.reset]).seq = .running (encode .frame) ∧
    decode (encode .frame) = .command .frame ∧ (running .frame [.reset]).inbox = .reset :: [] ∧
    4 < tiny.outStride ∧ 4 < tiny.outRows :=
  ⟨tiny_inv .frame _ (by decide), rfl, by decide, rfl, by decide, by decide⟩

theorem witness_StepKeepsTheInvariant :
    (running .frame []).Inv ∧ ∃ t, step (running .frame []) = .next t :=
  ⟨tiny_inv .frame _ (by decide), ⟨_, rfl⟩⟩

end Sys2Proof.Tests
end

/-!
PROOFS. The scope family: which configurations a step refuses, that no step changes the configuration, and the
invariant, at reset and over every step. First, what the operations a step is made of can answer.
-/

namespace Sys2Proof.Machine

/-! ## What the operations answer -/

/-- Everything a command can do: it performs its part and completes. A probe writes RESULT and may use
draws. -/
theorem exec_next {i : Instr} {s t : State} (h : exec i s = .next t) :
    (i = .nop ∧ t = s.complete) ∨ (i = .clear ∧ t = s.clear.complete) ∨ (i = .compose ∧ t = s.compose.complete) ∨
    (i = .convert ∧ t = s.convert.complete) ∨ (i = .frame ∧ t = s.compose.convert.complete) ∨
    (isProbe i = true ∧ t = { s with result := t.result, seq := .idle, draws := t.draws }) := by
  cases i with
  | nop => cases h; exact .inl ⟨rfl, rfl⟩
  | clear => cases h; exact .inr (.inl ⟨rfl, rfl⟩)
  | compose => cases h; exact .inr (.inr (.inl ⟨rfl, rfl⟩))
  | convert => cases h; exact .inr (.inr (.inr (.inl ⟨rfl, rfl⟩)))
  | frame => cases h; exact .inr (.inr (.inr (.inr (.inl ⟨rfl, rfl⟩))))
  | unpack idx row col => cases h; exact .inr (.inr (.inr (.inr (.inr ⟨rfl, rfl⟩))))
  | lut pix => cases h; exact .inr (.inr (.inr (.inr (.inr ⟨rfl, rfl⟩))))
  | resample xo yo => cases h; exact .inr (.inr (.inr (.inr (.inr ⟨rfl, rfl⟩))))
  | expand sample => cases h; exact .inr (.inr (.inr (.inr (.inr ⟨rfl, rfl⟩))))

/-- Every command answers a next state. -/
theorem exec_answers (i : Instr) (s : State) : ∃ t, exec i s = .next t := by
  cases i <;> exact ⟨_, rfl⟩

/-- Everything the block's turn can answer a next state by: an idle block stays, a running one performs its command. -/
theorem State.blockTurn_next {s t : State} (h : s.blockTurn = .next t) :
    (s.seq = .idle ∧ t = s) ∨ ∃ word i, s.seq = .running word ∧ decode word = .command i ∧ exec i s = .next t := by
  unfold State.blockTurn at h
  split at h
  · rename_i hs
    cases h
    exact .inl ⟨hs, rfl⟩
  · rename_i word hs
    split at h
    · rename_i i hd
      exact .inr ⟨word, i, hs, hd, h⟩
    · cases h

/-- The block's turn refuses nothing but a running word that is no command. -/
theorem State.blockTurn_refused {s : State} {r : Refusal} (h : s.blockTurn = .refused r) :
    ∃ op, r = .runningIllegal op := by
  unfold State.blockTurn at h
  split at h
  · cases h
  · split at h
    · rename_i i _
      obtain ⟨t, ht⟩ := exec_answers i s
      rw [ht] at h
      cases h
    · cases h
      exact ⟨_, rfl⟩

/-- Everything a register write can do, by its offset. -/
theorem State.writeRegister_cases (s : State) (off : Nat) (v : Word) :
    (off = 0x00 ∧ s.writeRegister off v = { s with ctrl := v &&& ctrlMask }) ∨
    (off = 0x04 ∧ s.writeRegister off v = { s with scroll := v &&& scrollMask }) ∨
    (off = 0x08 ∧ s.writeRegister off v = s.offerCommand v) ∨
    (off = 0x0C ∧ s.writeRegister off v = s.clearErr v) ∨
    s.writeRegister off v = s := by
  unfold State.writeRegister
  split
  · exact .inl ⟨rfl, rfl⟩
  · exact .inr (.inl ⟨rfl, rfl⟩)
  · exact .inr (.inr (.inl ⟨rfl, rfl⟩))
  · exact .inr (.inr (.inr (.inl ⟨rfl, rfl⟩)))
  · exact .inr (.inr (.inr (.inr rfl)))

/-- An offset that names a VRAM byte names one that VRAM has. -/
theorem vramAt_lt {c : Config} {off a : Nat} (h : vramAt c off = some a) : a < c.vramSize := by
  obtain ⟨⟨-, hlt⟩, ha⟩ := Option.ite_none_right_eq_some.mp h
  exact Option.some.inj ha ▸ hlt

/-- An offset that names a CSB byte names one that the CSB has. -/
theorem csbAt_lt {c : Config} {off a : Nat} (h : csbAt c off = some a) : a < 2 * (c.w * c.h) := by
  obtain ⟨⟨-, hlt⟩, ha⟩ := Option.ite_none_right_eq_some.mp h
  exact Option.some.inj ha ▸ hlt

/-- Everything one byte stored by the host can do: a byte of VRAM, a byte of the CSB, or nothing. -/
theorem State.storeByte_cases (s : State) (off : Nat) (b : Byte) :
    (∃ a, a < s.cfg.vramSize ∧ s.storeByte off b = { s with vram := s.vram.set a b }) ∨
    (∃ a, a < 2 * (s.cfg.w * s.cfg.h) ∧ s.storeByte off b = { s with csb := s.csb.set a b }) ∨
    s.storeByte off b = s := by
  unfold State.storeByte
  split
  · rename_i a ha
    exact .inl ⟨a, vramAt_lt ha, rfl⟩
  · split
    · rename_i a ha
      exact .inr (.inl ⟨a, csbAt_lt ha, rfl⟩)
    · exact .inr (.inr rfl)

/-- Everything a turn of the outside world can answer a next state by: a read, a register write, a write of the memory
windows, an outside write to OUT, reset, or the block's turn. -/
theorem takeTurn_next {u : Turn} {s t : State} (h : takeTurn u s = .next t) :
    (((∃ addr width, u = .read addr width) ∨ ∃ addr, u = .outRead addr) ∧
      t = { s with answer := t.answer, draws := t.draws }) ∨
    (∃ addr v, u = .write addr .w32 v ∧ inWindow s.cfg addr = true ∧
      t = s.writeRegister (addr - s.cfg.blockBase) v) ∨
    (∃ addr width v, u = .write addr width v ∧ inWindow s.cfg addr = true ∧
      s.raceIn (addr - s.cfg.blockBase) width.bytes = none ∧
      t = s.storeBytes (addr - s.cfg.blockBase) v width.bytes) ∨
    (∃ addr v, u = .outWrite addr v ∧ inOut s.cfg addr = true ∧ s.runs writesOut = false ∧
      t = { s with out := s.out.setWord addr v }) ∨
    (u = .reset ∧ t = s.hostReset) ∨
    (u = .pass ∧ s.blockTurn = .next t) := by
  cases u with
  | read addr width =>
    simp only [takeTurn] at h
    split at h
    · exact .inl ⟨.inl ⟨addr, width, rfl⟩, hostRead_next h⟩
    · cases h
  | write addr width v =>
    simp only [takeTurn] at h
    split at h
    · rename_i hw
      obtain ⟨-, rfl, -, ht⟩ | ⟨-, -, hr, ht⟩ := hostWrite_next h
      · exact .inr (.inl ⟨addr, v, rfl, hw, ht⟩)
      · exact .inr (.inr (.inl ⟨addr, width, v, rfl, hw, hr, ht⟩))
    · cases h
  | outRead addr => exact .inl ⟨.inr ⟨addr, rfl⟩, outRead_next h⟩
  | outWrite addr v => exact .inr (.inr (.inr (.inl ⟨addr, v, rfl, outWrite_next h⟩)))
  | reset => cases h; exact .inr (.inr (.inr (.inr (.inl ⟨rfl, rfl⟩))))
  | pass => exact .inr (.inr (.inr (.inr (.inr ⟨rfl, h⟩))))

/-! ## Which configurations are refused -/

/-- The check of a configuration is the list of conditions of 00_scope.md R9, and that of 20_memory.md R50 on
`BLOCK_BASE`. -/
theorem validConfig_iff (c : Config) :
    validConfig c = true ↔
      1 ≤ c.w ∧ c.w ≤ 256 ∧ 1 ≤ c.h ∧ c.h ≤ 256 ∧ 1 ≤ c.wo ∧ c.wo ≤ 4096 ∧ 1 ≤ c.ho ∧ c.ho ≤ 4096 ∧
      c.ubase + 256 * 16 ≤ c.vramSize ∧ 128 * 16 ≤ c.sbase ∧ c.sbase + 128 * 16 ≤ c.vramSize ∧
      c.map0 + 1024 ≤ c.vramSize ∧ c.map1 + 1024 ≤ c.vramSize ∧ c.vramSize ≤ 0x2000 ∧ c.wo ≤ c.outStride ∧
      c.rowOffset + c.ho ≤ c.outRows ∧ c.outBase % 4 = 0 ∧ c.blockBase % 0x10000 = 0 := by
  simp only [validConfig, geometryOk, vramOk, outOk, Bool.and_eq_true, decide_eq_true_eq, and_assoc]

theorem hostRead_refused {s : State} {off : Nat} {width : Width} {r : Refusal}
    (h : hostRead s off width = .refused r) : r = .badRegisterAccess ∨ r = .misalignedAccess := by
  unfold hostRead at h
  split at h
  · split at h
    · cases h
    · cases h; exact .inl rfl
  · split at h
    · cases h; exact .inr rfl
    · cases h

theorem hostWrite_refused {s : State} {off : Nat} {width : Width} {v : Word} {r : Refusal}
    (h : hostWrite s off width v = .refused r) : r = .badRegisterAccess ∨ r = .misalignedAccess := by
  unfold hostWrite at h
  split at h
  · split at h
    · cases h
    · cases h; exact .inl rfl
  · split at h
    · cases h; exact .inr rfl
    · split at h <;> cases h

theorem outRead_refused {s : State} {addr : Nat} {r : Refusal} (h : outRead s addr = .refused r) :
    r = .outsideOut ∨ ∃ op, r = .runningIllegal op := by
  unfold outRead at h
  split at h
  · split at h
    · split at h
      · cases h
      · cases h
      · rename_i hb
        cases h
        exact .inr (State.blockTurn_refused hb)
    · cases h
  · cases h; exact .inl rfl

theorem outWrite_refused {s : State} {addr : Nat} {v : Word} {r : Refusal} (h : outWrite s addr v = .refused r) :
    r = .outsideOut := by
  unfold outWrite at h
  split at h
  · split at h <;> cases h
  · cases h; rfl

/-- Everything a turn of the outside world can be refused for. -/
theorem takeTurn_refused {u : Turn} {s : State} {r : Refusal} (h : takeTurn u s = .refused r) :
    r = .badRegisterAccess ∨ r = .misalignedAccess ∨ r = .outsideWindow ∨ r = .outsideOut ∨
      ∃ op, r = .runningIllegal op := by
  cases u with
  | read addr width =>
    simp only [takeTurn] at h
    split at h
    · have := hostRead_refused h
      tauto
    · cases h; simp
  | write addr width v =>
    simp only [takeTurn] at h
    split at h
    · have := hostWrite_refused h
      tauto
    · cases h; simp
  | outRead addr =>
    have := outRead_refused h
    tauto
  | outWrite addr v =>
    have := outWrite_refused h
    tauto
  | reset => cases h
  | pass =>
    have := State.blockTurn_refused h
    tauto

/-- A step on a valid configuration is never refused for the configuration. -/
theorem step_ne_invalidConfig {s : State} (hc : validConfig s.cfg = true) : step s ≠ .refused .invalidConfig := by
  intro h
  cases hi : s.inbox with
  | nil =>
    rw [step_of_empty hc hi] at h
    obtain ⟨op, hop⟩ := State.blockTurn_refused h
    cases hop
  | cons u rest =>
    rw [step_of_turn hc hi] at h
    simpa using takeTurn_refused h

/-- Settles O6: `validConfig` is the list of conditions, and past it no turn and no command is refused so. -/
theorem invalidConfigurationsAreRefused : Obligations.InvalidConfigurationsAreRefused := by
  intro s c good
  have hgood : validConfig c = true ↔ good := validConfig_iff c
  constructor
  · intro hbad
    exact step_of_invalid (Bool.eq_false_iff.mpr fun hv => hbad (hgood.mp hv))
  · intro h
    exact step_ne_invalidConfig (hgood.mpr h)

/-! ## No operation changes the configuration -/

theorem exec_cfg {i : Instr} {s t : State} (h : exec i s = .next t) : t.cfg = s.cfg := by
  obtain ⟨-, rfl⟩ | ⟨-, rfl⟩ | ⟨-, rfl⟩ | ⟨-, rfl⟩ | ⟨-, rfl⟩ | ⟨-, ht⟩ := exec_next h
  · rfl
  · rfl
  · rfl
  · rfl
  · rfl
  · rw [ht]

theorem State.blockTurn_cfg {s t : State} (h : s.blockTurn = .next t) : t.cfg = s.cfg := by
  obtain ⟨-, rfl⟩ | ⟨word, i, -, -, he⟩ := State.blockTurn_next h
  · rfl
  · exact exec_cfg he

@[simp] theorem State.offerCommand_cfg (s : State) (word : Word) : (s.offerCommand word).cfg = s.cfg := by
  obtain ⟨-, h⟩ | ⟨-, -, h⟩ | ⟨-, -, h⟩ := s.offerCommand_cases word <;> rw [h] <;> rfl

@[simp] theorem State.writeRegister_cfg (s : State) (off : Nat) (v : Word) :
    (s.writeRegister off v).cfg = s.cfg := by
  obtain ⟨-, h⟩ | ⟨-, h⟩ | ⟨-, h⟩ | ⟨-, h⟩ | h := s.writeRegister_cases off v <;> simp [h]

@[simp] theorem State.storeBytes_cfg (s : State) (off : Nat) (v : Word) (n : Nat) :
    (s.storeBytes off v n).cfg = s.cfg := by
  obtain ⟨vram, csb, h⟩ := s.storeBytes_only off v n
  rw [h]

@[simp] theorem State.mixMemories_cfg (s t : State) (k : Nat) : (s.mixMemories t k).cfg = s.cfg := rfl

@[simp] theorem State.hostReset_cfg (s : State) : s.hostReset.cfg = s.cfg := by
  obtain h | ⟨word, t, -, -, h⟩ := s.hostReset_cases <;> simp [h]

theorem takeTurn_cfg {u : Turn} {s t : State} (h : takeTurn u s = .next t) : t.cfg = s.cfg := by
  obtain ⟨-, ht⟩ | ⟨addr, v, -, -, rfl⟩ | ⟨addr, width, v, -, -, -, rfl⟩ | ⟨addr, v, -, -, -, rfl⟩ | ⟨-, rfl⟩ |
    ⟨-, hb⟩ := takeTurn_next h
  · rw [ht]
  · exact s.writeRegister_cfg _ v
  · exact s.storeBytes_cfg _ v _
  · rfl
  · exact s.hostReset_cfg
  · exact State.blockTurn_cfg hb

/-- Settles O54: a step is a turn taken or the block's own turn, and neither changes the configuration. -/
theorem configurationNeverChanges : Obligations.ConfigurationNeverChanges := by
  intro s t h
  obtain ⟨-, ⟨u, rest, -, hu⟩ | ⟨-, hb⟩⟩ := step_cases h
  · exact (takeTurn_cfg hu :)
  · exact State.blockTurn_cfg hb

/-! ## The invariant -/

/-- Settles O53: registers and memories are empty, and the default configuration is valid. -/
theorem resetMeetsTheInvariant : Obligations.ResetMeetsTheInvariant where
  config := show validConfig Config.default = true by decide
  ctrl := show ctrlClean 0#32 = true by decide
  scroll := show scrollClean 0#32 = true by decide
  lCtrl := show ctrlClean 0#32 = true by decide
  lScroll := show scrollClean 0#32 = true by decide
  seq := rfl
  vramForm := Memory.wf_nil
  csbForm := Memory.wf_nil
  ifbForm := Memory.wf_nil
  outForm := Memory.wf_nil
  vramBounds := rfl
  csbBounds := rfl
  ifbBounds := rfl
  outBounds := rfl

/-! ### What the invariant asks of one field -/

theorem ctrlClean_masked (v : Word) : ctrlClean (v &&& ctrlMask) = true := by
  simp [ctrlClean, BitVec.and_assoc]

theorem scrollClean_masked (v : Word) : scrollClean (v &&& scrollMask) = true := by
  simp [scrollClean, BitVec.and_assoc]

/-- A word write inside the bounds keeps them. -/
theorem Memory.within_setWord {m : Memory 8} {lo hi a : Nat} (h : m.within lo hi = true) (v : Word) (hlo : lo ≤ a)
    (hhi : a + 3 < hi) : Memory.within (m.setWord a v) lo hi = true := by
  have h0 := Memory.within_set h (byteAt v 0) hlo (by omega)
  have h1 := Memory.within_set h0 (byteAt v 1) (a := a + 1) (by omega) (by omega)
  have h2 := Memory.within_set h1 (byteAt v 2) (a := a + 2) (by omega) (by omega)
  exact Memory.within_set h2 (byteAt v 3) (by omega) hhi

/-- All four bytes of an aligned word of OUT lie in OUT. -/
theorem inOut_word {c : Config} {addr : Nat} (h : inOut c addr = true) :
    c.outBase ≤ addr ∧ addr + 3 < c.outBase + outBytes c := by
  simp only [inOut, Bool.and_eq_true, decide_eq_true_eq] at h
  unfold outBytes at h ⊢
  omega

/-! ### Every operation keeps the invariant -/

theorem State.Inv.withInbox {s : State} (h : s.Inv) (turns : List Turn) : ({ s with inbox := turns } : State).Inv :=
  { h with }

theorem State.Inv.withAnswer {s : State} (h : s.Inv) (answer : Option Word) (draws : Nat) :
    ({ s with answer := answer, draws := draws } : State).Inv :=
  { h with }

theorem State.Inv.complete {s : State} (h : s.Inv) : s.complete.Inv := { h with seq := rfl }

theorem State.Inv.raiseErr {s : State} (h : s.Inv) (e : ErrKind) : (s.raiseErr e).Inv := by
  cases e with
  | ill => exact { h with }
  | ovr => exact { h with }

theorem State.Inv.clearErr {s : State} (h : s.Inv) (v : Word) : (s.clearErr v).Inv := { h with }

theorem State.Inv.resetRegisters {s : State} (h : s.Inv) : s.resetRegisters.Inv :=
  { h with
    ctrl := show ctrlClean 0#32 = true by decide
    scroll := show scrollClean 0#32 = true by decide
    lCtrl := show ctrlClean 0#32 = true by decide
    lScroll := show scrollClean 0#32 = true by decide
    seq := rfl }

theorem State.Inv.clear {s : State} (h : s.Inv) : s.clear.Inv :=
  { h with ifbForm := State.clear_ifb_wf h.ifbForm, ifbBounds := State.clear_ifb_within h.ifbBounds }

theorem State.Inv.compose {s : State} (h : s.Inv) : s.compose.Inv :=
  { h with ifbForm := State.compose_ifb_wf h.ifbForm, ifbBounds := State.compose_ifb_within h.ifbBounds }

theorem State.Inv.convert {s : State} (h : s.Inv) : s.convert.Inv :=
  { h with outForm := State.convert_out_wf h.outForm, outBounds := State.convert_out_within h.outBounds }

theorem State.Inv.exec {i : Instr} {s t : State} (h : s.Inv) (he : exec i s = .next t) : t.Inv := by
  obtain ⟨-, rfl⟩ | ⟨-, rfl⟩ | ⟨-, rfl⟩ | ⟨-, rfl⟩ | ⟨-, rfl⟩ | ⟨-, ht⟩ := exec_next he
  · exact h.complete
  · exact h.clear.complete
  · exact h.compose.complete
  · exact h.convert.complete
  · exact h.compose.convert.complete
  · rw [ht]
    exact { h with seq := rfl }

theorem State.Inv.blockTurn {s t : State} (h : s.Inv) (hb : s.blockTurn = .next t) : t.Inv := by
  obtain ⟨-, rfl⟩ | ⟨word, i, -, -, he⟩ := State.blockTurn_next hb
  · exact h
  · exact h.exec he

theorem State.Inv.offerCommand {s : State} (h : s.Inv) (word : Word) : (s.offerCommand word).Inv := by
  obtain ⟨-, e⟩ | ⟨-, -, e⟩ | ⟨-, ⟨i, hd⟩, e⟩ := s.offerCommand_cases word <;> rw [e]
  · exact h.raiseErr .ovr
  · exact h.raiseErr .ill
  · exact { h with lCtrl := h.ctrl, lScroll := h.scroll, seq := by simp [State.runsCommand, hd] }

theorem State.Inv.writeRegister {s : State} (h : s.Inv) (off : Nat) (v : Word) : (s.writeRegister off v).Inv := by
  obtain ⟨-, e⟩ | ⟨-, e⟩ | ⟨-, e⟩ | ⟨-, e⟩ | e := s.writeRegister_cases off v <;> rw [e]
  · exact { h with ctrl := ctrlClean_masked v }
  · exact { h with scroll := scrollClean_masked v }
  · exact h.offerCommand v
  · exact h.clearErr v
  · exact h

theorem State.Inv.storeByte {s : State} (h : s.Inv) (off : Nat) (b : Byte) : (s.storeByte off b).Inv := by
  obtain ⟨a, ha, e⟩ | ⟨a, ha, e⟩ | e := s.storeByte_cases off b <;> rw [e]
  · exact { h with
      vramForm := Memory.wf_set h.vramForm a b
      vramBounds := Memory.within_set h.vramBounds b (Nat.zero_le a) ha }
  · exact { h with
      csbForm := Memory.wf_set h.csbForm a b
      csbBounds := Memory.within_set h.csbBounds b (Nat.zero_le a) ha }
  · exact h

theorem State.Inv.storeBytes {s : State} (h : s.Inv) (off : Nat) (v : Word) (n : Nat) :
    (s.storeBytes off v n).Inv := by
  induction n with
  | zero => exact h
  | succ n ih => exact ih.storeByte (off + n) (byteAt v n)

theorem State.Inv.setOutWord {s : State} (h : s.Inv) {addr : Nat} (ha : inOut s.cfg addr = true) (v : Word) :
    ({ s with out := s.out.setWord addr v } : State).Inv := by
  obtain ⟨hlo, hhi⟩ := inOut_word ha
  exact { h with
    outForm := Memory.wf_setWord h.outForm addr v
    outBounds := Memory.within_setWord h.outBounds v hlo hhi }

theorem State.Inv.hostReset {s : State} (h : s.Inv) : s.hostReset.Inv := by
  obtain e | ⟨word, t, -, -, e⟩ := s.hostReset_cases <;> rw [e]
  · exact h.resetRegisters
  · exact (State.mixMemories_inv h t s.draws).resetRegisters

theorem State.Inv.takeTurn {u : Turn} {s t : State} (h : s.Inv) (hu : takeTurn u s = .next t) : t.Inv := by
  obtain ⟨-, ht⟩ | ⟨addr, v, -, -, rfl⟩ | ⟨addr, width, v, -, -, -, rfl⟩ | ⟨addr, v, -, ha, -, rfl⟩ | ⟨-, rfl⟩ |
    ⟨-, hb⟩ := takeTurn_next hu
  · rw [ht]
    exact h.withAnswer t.answer t.draws
  · exact h.writeRegister _ v
  · exact h.storeBytes _ v _
  · exact h.setOutWord ha v
  · exact h.hostReset
  · exact h.blockTurn hb

/-- Settles O52: a step is a turn taken or the block's own turn, and each operation they are made of keeps the
invariant. -/
theorem stepKeepsTheInvariant : Obligations.StepKeepsTheInvariant := by
  intro s t h hs
  obtain ⟨-, ⟨u, rest, -, hu⟩ | ⟨-, hb⟩⟩ := step_cases hs
  · exact (h.withInbox rest).takeTurn hu
  · exact h.blockTurn hb

end Sys2Proof.Machine

/-!
PROOFS. The state family: what one step can do to the registers, the register window as the host reads and writes it,
the memory windows over VRAM and the CSB, the frame of the commands, and reset.
-/

namespace Sys2Proof.Machine

/-! ## The frame of the commands -/

/-- The exact frame of a command, and which of RESULT, IFB and OUT it may change (20_memory.md R51, 10_state.md R29). -/
theorem exec_frame {i : Instr} {s t : State} (h : exec i s = .next t) :
    t = { s with result := t.result, seq := .idle, ifb := t.ifb, out := t.out, draws := t.draws } ∧
    (isProbe i = false → t.result = s.result) ∧
    (i ≠ .clear → i ≠ .compose → i ≠ .frame → t.ifb = s.ifb) ∧
    (i ≠ .convert → i ≠ .frame → t.out = s.out) := by
  obtain ⟨rfl, rfl⟩ | ⟨rfl, rfl⟩ | ⟨rfl, rfl⟩ | ⟨rfl, rfl⟩ | ⟨rfl, rfl⟩ | ⟨hp, ht⟩ := exec_next h
  · exact ⟨rfl, fun _ => rfl, fun _ _ _ => rfl, fun _ _ => rfl⟩
  · exact ⟨rfl, fun _ => rfl, fun hne => absurd rfl hne, fun _ _ => rfl⟩
  · exact ⟨rfl, fun _ => rfl, fun _ hne => absurd rfl hne, fun _ _ => rfl⟩
  · exact ⟨rfl, fun _ => rfl, fun _ _ _ => rfl, fun hne => absurd rfl hne⟩
  · exact ⟨rfl, fun _ => rfl, fun _ _ hne => absurd rfl hne, fun _ hne => absurd rfl hne⟩
  · rw [ht]
    exact ⟨rfl, by simp [hp], fun _ _ _ => rfl, fun _ _ => rfl⟩

/-- Settles O50: every command answers, and its frame says what it leaves unchanged. -/
theorem commandFrame : Obligations.CommandFrame := by
  intro i s
  obtain ⟨t, ht⟩ := exec_answers i s
  exact ⟨t, ht, exec_frame ht⟩

/-- Settles O51: each command is a function of the latches and never of CTRL and SCROLL, which it carries along. -/
theorem latchesShieldTheCommand : Obligations.LatchesShieldTheCommand := by
  intro i s t c d h
  cases i <;> cases h <;> rfl

/-! ## What one step can do to the registers -/

/-- The error bits, RESULT and both latches of `t` are those of `s`: the registers that only some steps may change
(10_state.md R27, R29, R33). -/
structure KeepsRegisters (s t : State) : Prop where
  ill : t.ill = s.ill
  ovr : t.ovr = s.ovr
  result : t.result = s.result
  lCtrl : t.lCtrl = s.lCtrl
  lScroll : t.lScroll = s.lScroll

/-- What a step from `s` to `t` does to the error bits, RESULT and the latches, by the kind of step. -/
inductive RegisterEffect (s t : State) : Prop where
  /-- The reset turn. -/
  | reset {rest : List Turn} (turn : s.inbox = .reset :: rest) (next : t = ({ s with inbox := rest } : State).hostReset)
  /-- A STATUS write, which clears the error bits it names. -/
  | status {v : Word} {rest : List Turn} (turn : s.inbox = wr32 s.cfg .status v :: rest)
      (next : t = ({ s with inbox := rest } : State).clearErr v)
  /-- A CMD write, which offers its word to the block. -/
  | cmd {word : Word} {rest : List Turn} (turn : s.inbox = wr32 s.cfg .cmd word :: rest)
      (next : t = ({ s with inbox := rest } : State).offerCommand word)
  /-- The block's turn with a command running. -/
  | performed {word : Word} {i : Instr} {turns : List Turn} (moves : s.blockMoves) (runs : s.seq = .running word)
      (decodes : decode word = .command i) (next : exec i { s with inbox := turns } = .next t)
  /-- Any other step. -/
  | kept (keeps : KeepsRegisters s t)

theorem KeepsRegisters.withInbox (s : State) (turns : List Turn) : KeepsRegisters s { s with inbox := turns } :=
  ⟨rfl, rfl, rfl, rfl, rfl⟩

/-- A command changes of these registers RESULT alone. -/
theorem exec_keepsRegisters {i : Instr} {s t : State} (h : exec i s = .next t) :
    KeepsRegisters { s with result := t.result } t := by
  obtain ⟨ht, -⟩ := exec_frame h
  rw [ht]
  exact ⟨rfl, rfl, rfl, rfl, rfl⟩

/-- The block's turn performs the running command or, of an idle block, keeps everything. -/
theorem blockTurn_registerEffect {s t : State} {turns : List Turn} (hm : s.blockMoves)
    (h : ({ s with inbox := turns } : State).blockTurn = .next t) : RegisterEffect s t := by
  obtain ⟨-, rfl⟩ | ⟨word, i, hs, hd, he⟩ := State.blockTurn_next h
  · exact .kept (.withInbox s turns)
  · exact .performed hm hs hd he

/-- A host write that reaches a register's offset is the `WR32` of that register. -/
theorem write_eq_wr32 {c : Config} {addr : Nat} (r : HostRegister) (h : inWindow c addr = true)
    (hr : addr - c.blockBase = r.offset) (v : Word) : Turn.write addr .w32 v = wr32 c r v := by
  simp only [inWindow, Bool.and_eq_true, decide_eq_true_eq] at h
  have ha : addr = c.blockBase + r.offset := by omega
  rw [wr32, ha]

/-- A register write offers a command, clears error bits, or leaves all these registers. -/
theorem writeRegister_registerEffect {s : State} {addr : Nat} {v : Word} {rest : List Turn}
    (hi : s.inbox = .write addr .w32 v :: rest) (hw : inWindow s.cfg addr = true) :
    RegisterEffect s (({ s with inbox := rest } : State).writeRegister (addr - s.cfg.blockBase) v) := by
  obtain ⟨-, e⟩ | ⟨-, e⟩ | ⟨ho, e⟩ | ⟨ho, e⟩ | e :=
    State.writeRegister_cases { s with inbox := rest } (addr - s.cfg.blockBase) v
  · exact .kept (e ▸ ⟨rfl, rfl, rfl, rfl, rfl⟩)
  · exact .kept (e ▸ ⟨rfl, rfl, rfl, rfl, rfl⟩)
  · exact .cmd (hi.trans (by rw [write_eq_wr32 .cmd hw ho])) e
  · exact .status (hi.trans (by rw [write_eq_wr32 .status hw ho])) e
  · exact .kept (e.symm ▸ .withInbox s rest)

/-- Everything a step can do to the error bits, RESULT and the latches. -/
theorem step_registerEffect {s t : State} (h : step s = .next t) : RegisterEffect s t := by
  obtain ⟨-, ⟨u, rest, hi, hu⟩ | ⟨hi, hb⟩⟩ := step_cases h
  · obtain ⟨-, ht⟩ | ⟨addr, v, rfl, hw, rfl⟩ | ⟨addr, width, v, -, -, -, rfl⟩ | ⟨addr, v, -, -, -, rfl⟩ | ⟨rfl, ht⟩ |
      ⟨rfl, hb⟩ := takeTurn_next hu
    · exact .kept (ht ▸ ⟨rfl, rfl, rfl, rfl, rfl⟩)
    · exact writeRegister_registerEffect hi hw
    · obtain ⟨vram, csb, e⟩ := State.storeBytes_only { s with inbox := rest } (addr - s.cfg.blockBase) v width.bytes
      exact .kept (e ▸ ⟨rfl, rfl, rfl, rfl, rfl⟩)
    · exact .kept ⟨rfl, rfl, rfl, rfl, rfl⟩
    · exact .reset hi ht
    · exact blockTurn_registerEffect (.inr ⟨rest, hi⟩) hb
  · exact blockTurn_registerEffect (turns := s.inbox) (.inl hi) hb

/-- A CMD write changes no RESULT. -/
@[simp] theorem State.offerCommand_result (s : State) (word : Word) : (s.offerCommand word).result = s.result := by
  obtain ⟨-, e⟩ | ⟨-, -, e⟩ | ⟨-, -, e⟩ := s.offerCommand_cases word <;> rw [e] <;> rfl

@[simp] theorem State.hostReset_ill (s : State) : s.hostReset.ill = false := by
  obtain e | ⟨word, t, -, -, e⟩ := s.hostReset_cases <;> rw [e] <;> rfl

@[simp] theorem State.hostReset_ovr (s : State) : s.hostReset.ovr = false := by
  obtain e | ⟨word, t, -, -, e⟩ := s.hostReset_cases <;> rw [e] <;> rfl

/-- Settles O13: of the steps that touch the registers, only the STATUS write and reset clear an error bit, and only the
CMD write sets one, OVR while a command runs and ILL for a reserved opcode. -/
theorem errorBitsAreSticky : Obligations.ErrorBitsAreSticky := by
  intro s t h
  cases step_registerEffect h with
  | @reset rest turn next =>
    exact ⟨fun _ _ => .inl ⟨rest, turn⟩, fun _ _ => .inl ⟨rest, turn⟩, by simp [next], by simp [next]⟩
  | @status v rest turn next =>
    refine ⟨fun h0 h1 => .inr ⟨v, rest, turn, ?_⟩, fun h0 h1 => .inr ⟨v, rest, turn, ?_⟩, ?_, ?_⟩
    · simpa [next, h0] using h1
    · simpa [next, h0] using h1
    · simp +contextual [next]
    · simp +contextual [next]
  | @cmd word rest turn next =>
    obtain ⟨hs, e⟩ | ⟨hs, ⟨op, hd⟩, e⟩ | ⟨-, -, e⟩ := State.offerCommand_cases { s with inbox := rest } word
    · rw [next, e]
      exact ⟨by simp +contextual, by simp, by simp +contextual, fun _ _ => ⟨hs, word, rest, turn⟩⟩
    · rw [next, e]
      exact ⟨by simp, by simp +contextual, fun _ _ => ⟨hs, word, op, rest, turn, hd⟩, by simp +contextual⟩
    · rw [next, e]
      simp +contextual
  | performed _ _ _ next =>
    have keeps := exec_keepsRegisters next
    simp +contextual [keeps.ill, keeps.ovr]
  | kept keeps => simp +contextual [keeps.ill, keeps.ovr]

/-- Settles O55: of the steps that touch the registers, only reset and a probe's performance write RESULT. -/
theorem onlyProbesChangeResult : Obligations.OnlyProbesChangeResult := by
  intro s t h hne
  cases step_registerEffect h with
  | @reset rest turn next => exact .inl ⟨rest, turn⟩
  | status turn next => simp [next] at hne
  | cmd turn next => simp [next] at hne
  | @performed word i turns moves runs decodes next =>
    obtain ⟨-, hresult, -⟩ := exec_frame next
    cases hp : isProbe i with
    | true => exact .inr ⟨moves, word, i, runs, decodes, hp⟩
    | false => exact absurd (hresult hp) hne
  | kept keeps => exact absurd keeps.result hne

/-- Settles O56: of the steps that touch the registers, only reset and an accepted CMD write load the latches. -/
theorem latchesLoadAtAcceptance : Obligations.LatchesLoadAtAcceptance := by
  intro s t h hne
  cases step_registerEffect h with
  | @reset rest turn next => exact .inl ⟨rest, turn⟩
  | status turn next => simp [next] at hne
  | @cmd word rest turn next =>
    obtain ⟨-, e⟩ | ⟨-, -, e⟩ | ⟨hs, ⟨i, hd⟩, e⟩ := State.offerCommand_cases { s with inbox := rest } word
    · simp [next, e] at hne
    · simp [next, e] at hne
    · rw [next, e]
      exact .inr ⟨hs, rfl, rfl, word, i, rest, turn, hd, rfl⟩
  | performed _ _ _ next =>
    have keeps := exec_keepsRegisters next
    simp [keeps.lCtrl, keeps.lScroll] at hne
  | kept keeps => simp [keeps.lCtrl, keeps.lScroll] at hne

/-! ## The register window -/

/-- A `WR32` of a register offset is that register's write. -/
theorem step_writeRegister {s : State} {off : Nat} {v : Word} {rest : List Turn} (hc : validConfig s.cfg = true)
    (h : off < 0x1000) (ha : off % 4 = 0) (hi : s.inbox = .write (s.cfg.blockBase + off) .w32 v :: rest) :
    step s = .next (({ s with inbox := rest } : State).writeRegister off v) := by
  rw [step_write hc (by unfold windowBytes; omega) hi, hostWrite_register h ha]

/-- An `RD32` of a register offset answers what the register reads. -/
theorem step_readRegister {s : State} {off : Nat} {rest : List Turn} (hc : validConfig s.cfg = true)
    (h : off < 0x1000) (ha : off % 4 = 0) (hi : s.inbox = .read (s.cfg.blockBase + off) .w32 :: rest) :
    step s = .next { s with inbox := rest, answer := some (s.readRegister off) } := by
  rw [step_read hc (by unfold windowBytes; omega) hi, hostRead_register h ha]
  rfl

/-- Every named register lies in the register window. -/
theorem HostRegister.offset_lt (r : HostRegister) : r.offset < 0x1000 := by cases r <;> decide

/-- Every named register is a whole word. -/
theorem HostRegister.offset_aligned (r : HostRegister) : r.offset % 4 = 0 := by cases r <;> decide

theorem step_wr32 {s : State} {r : HostRegister} {v : Word} {rest : List Turn} (hc : validConfig s.cfg = true)
    (hi : s.inbox = wr32 s.cfg r v :: rest) :
    step s = .next (({ s with inbox := rest } : State).writeRegister r.offset v) :=
  step_writeRegister hc r.offset_lt r.offset_aligned hi

theorem step_rd32 {s : State} {r : HostRegister} {rest : List Turn} (hc : validConfig s.cfg = true)
    (hi : s.inbox = rd32 s.cfg r :: rest) :
    step s = .next { s with inbox := rest, answer := some (s.readRegister r.offset) } :=
  step_readRegister hc r.offset_lt r.offset_aligned hi

/-- Settles O14: the write is `clearErr`, bit 8 against ILL and bit 9 against OVR. -/
theorem statusWriteClears : Obligations.StatusWriteClears := by
  intro s v rest hc hi
  have clears (flag bit : Bool) : (flag && !bit) = if bit = true then false else flag := by
    cases bit <;> simp
  rw [step_wr32 hc hi, ← clears, ← clears]
  rfl

/-- The writable bits of CTRL, one by one (10_state.md R23). -/
theorem ctrlMask_getLsbD (i : Nat) : ctrlMask.getLsbD i = decide (i = 0 ∨ i = 1 ∨ i = 2 ∨ i = 4 ∨ i = 5) := by
  by_cases hi : i < 32
  · revert i
    decide
  · rw [BitVec.getLsbD_of_ge _ _ (by omega), eq_comm, decide_eq_false_iff_not]
    omega

theorem toNat_and_scrollMask (v : Word) : (v &&& scrollMask).toNat = v.toNat % 2 ^ 16 := by
  rw [BitVec.toNat_and]
  exact Nat.and_two_pow_sub_one_eq_mod v.toNat 16

/-- Settles O15: both writes mask the value with the register's writable bits. -/
theorem modeWritesSetTheirFields : Obligations.ModeWritesSetTheirFields := by
  intro s v rest hc
  constructor
  · intro hi
    refine ⟨_, step_wr32 hc hi, rfl, fun i => ?_⟩
    show (v &&& ctrlMask).getLsbD i = _
    rw [BitVec.getLsbD_and, ctrlMask_getLsbD, Bool.and_comm]
  · intro hi
    exact ⟨_, step_wr32 hc hi, rfl, toNat_and_scrollMask v⟩

/-- Settles O16: each PAL register reads its palette entry, and a register write at its offset does nothing. -/
theorem paletteRegistersAreReadOnly : Obligations.PaletteRegistersAreReadOnly := by
  intro s r entry v rest hc hr
  obtain ⟨hread, hwrite⟩ :
      s.readRegister r.offset = entry ∧
        ({ s with inbox := rest } : State).writeRegister r.offset v = { s with inbox := rest } := by
    obtain ⟨rfl, rfl⟩ | ⟨rfl, rfl⟩ | ⟨rfl, rfl⟩ | ⟨rfl, rfl⟩ := hr <;> exact ⟨rfl, rfl⟩
  constructor
  · intro hi
    rw [step_rd32 hc hi, hread]
  · intro hi
    rw [step_wr32 hc hi, hwrite]

/-- An offset that 10_state.md R22 does not list reads 0. -/
theorem State.readRegister_unlisted (s : State) {off : Nat}
    (h : off ∉ [0x00, 0x04, 0x08, 0x0C, 0x10, 0x20, 0x24, 0x28, 0x2C]) : s.readRegister off = 0#32 := by
  unfold State.readRegister
  split
  case h_9 => rfl
  all_goals exact absurd (by decide) h

/-- An offset that 10_state.md R22 does not list ignores writes. -/
theorem State.writeRegister_unlisted (s : State) {off : Nat} (v : Word)
    (h : off ∉ [0x00, 0x04, 0x08, 0x0C, 0x10, 0x20, 0x24, 0x28, 0x2C]) : s.writeRegister off v = s := by
  obtain ⟨rfl, -⟩ | ⟨rfl, -⟩ | ⟨rfl, -⟩ | ⟨rfl, -⟩ | e := s.writeRegister_cases off v
  case inr.inr.inr.inr => exact e
  all_goals exact absurd (by decide) h

/-- Settles O17: the access reaches the register window at an offset with no register. -/
theorem unlistedRegistersReadZero : Obligations.UnlistedRegistersReadZero := by
  intro s off v rest hc hoff ha hlist
  constructor
  · intro hi
    rw [step_readRegister hc hoff ha hi, State.readRegister_unlisted s hlist]
  · intro hi
    rw [step_writeRegister hc hoff ha hi, State.writeRegister_unlisted _ v hlist]

/-- STATUS as a number: BUSY at bit 0, ILL at bit 8, OVR at bit 9 (10_state.md R27). -/
theorem State.status_toNat (s : State) :
    s.status.toNat = s.busy.toNat + s.ill.toNat * 256 + s.ovr.toNat * 512 := by
  unfold State.status
  cases s.busy <;> cases s.ill <;> cases s.ovr <;> decide

theorem State.busy_toNat (s : State) : s.busy.toNat = if s.seq = .idle then 0 else 1 := by
  cases hs : s.seq <;> simp [State.busy, hs]

/-- Settles O18: each read is what the register's offset reads, STATUS as a number. -/
theorem registersReadTheirValues : Obligations.RegistersReadTheirValues := by
  intro s rest hc
  refine ⟨step_rd32 hc, step_rd32 hc, step_rd32 hc, step_rd32 hc, fun hi => ⟨s.status, step_rd32 hc hi, ?_⟩,
    fun v => step_wr32 hc⟩
  have flag (b : Bool) (n : Nat) : b.toNat * n = if b = true then n else 0 := by cases b <;> simp
  rw [s.status_toNat, s.busy_toNat, flag, flag]

/-! ## The memory windows over VRAM and the CSB -/

/-- An aligned access that starts inside a range of whole words ends inside it. -/
theorem access_end_le (width : Width) {a n : Nat} (ha : a < n) (hn : n % 4 = 0) (h : a % width.bytes = 0) :
    a + width.bytes ≤ n := by
  rcases width.bytes_cases with e | e | e <;> rw [e] at h ⊢ <;> omega

/-- An aligned read at a byte of a memory `m`, whose `size` bytes stand in the window range `[base, base + range)`,
answers the little-endian composition of its bytes: a written byte as it stands, and 0 past the last. -/
theorem step_readMemory {s : State} {base range size a : Nat} {width : Width} {rest : List Turn} (m : Memory 8)
    (hc : validConfig s.cfg = true) (hi : s.inbox = .read (s.cfg.blockBase + base + a) width :: rest)
    (hbyte : ∀ b k, b < range → s.windowByte (base + b) k = if b < size then m.read b k else 0)
    (hbase : 0x1000 ≤ base ∧ base % 4 = 0) (hrange : base + range ≤ windowBytes ∧ range % 4 = 0)
    (hsize : size ≤ range) (ha : a < size) (hal : a % width.bytes = 0) :
    ∃ (t : State) (v : Word) (f : Nat → Byte), step s = .next t ∧
      t = { s with inbox := rest, answer := some v, draws := t.draws } ∧ v.toNat = littleEndian f width.bytes ∧
      ∀ i, i < width.bytes → (a + i < size → ∀ b, m.get (a + i) = some b → f i = b) ∧ (size ≤ a + i → f i = 0) := by
  have hend := access_end_le width (n := range) (by omega) hrange.2 hal
  have hmis := misaligned_of_aligned ((base_mod_bytes width a hbase.2).trans hal)
  have hread := step_read hc (off := base + a) (by omega) (Nat.add_assoc _ base a ▸ hi)
  rw [hostRead_window (by omega) hmis] at hread
  refine ⟨_, _, _, hread, rfl, joinBytes_littleEndian width _, fun i hlt => ?_⟩
  have hi' : s.windowByte (base + a + i) (s.draws + i) = if a + i < size then m.read (a + i) (s.draws + i) else 0 := by
    rw [Nat.add_assoc]
    exact hbyte (a + i) _ (by omega)
  constructor
  · intro hin b hb
    exact hi'.trans (by rw [if_pos hin, Memory.read_of_get hb])
  · intro hout
    exact hi'.trans (if_neg (by omega))

/-- Settles O21: VRAM is a memory of the window. -/
theorem vramReadsComposeLittleEndian : Obligations.VramReadsComposeLittleEndian := by
  intro s a width rest hc hi ha hal
  exact step_readMemory s.vram hc hi (fun b k hb => s.windowByte_vram hb k) (by decide) (by decide)
    (vramSize_le hc) ha hal

/-- A host write at a CSB offset races with nothing while no command that reads the CSB runs. -/
theorem State.raceIn_csb {s : State} {a n : Nat} (h : a + n ≤ 0x20000) (hr : s.runs (readsCsb s.cmode) = false) :
    s.raceIn (0x20000 + a) n = none := by
  rw [State.raceIn_eq_none]
  intro i hi
  obtain ⟨hvram, -, -⟩ := at_csb s.cfg (a := a + i) (by omega)
  rw [← Nat.add_assoc] at hvram
  simp [State.raceAt, hvram, hr]

/-- An aligned write at a CSB byte, while no command that reads the CSB runs, stores its bytes and nothing else. -/
theorem step_writeCsb {s : State} {a : Nat} {width : Width} {v : Word} {rest : List Turn}
    (hc : validConfig s.cfg = true) (hi : s.inbox = .write (s.cfg.blockBase + 0x20000 + a) width v :: rest)
    (ha : a < 2 * (s.cfg.w * s.cfg.h)) (hal : a % width.bytes = 0) (hr : s.runs (readsCsb s.cmode) = false) :
    ∃ m : Memory 8, step s = .next { s with inbox := rest, csb := m } ∧
      (∀ i, i < width.bytes → a + i < 2 * (s.cfg.w * s.cfg.h) → m.get (a + i) = some (byteAt v i)) ∧
      (∀ b, b < a ∨ a + width.bytes ≤ b ∨ 2 * (s.cfg.w * s.cfg.h) ≤ b → m.get b = s.csb.get b) := by
  have hsize := viewport_le hc
  have hend := access_end_le width (n := 0x20000) (by omega) (by decide) hal
  have hmis := misaligned_of_aligned ((base_mod_bytes width (base := 0x20000) a (by decide)).trans hal)
  have hrace : ({ s with inbox := rest } : State).raceIn (0x20000 + a) width.bytes = none := State.raceIn_csb hend hr
  obtain ⟨m, hstore, hget⟩ := State.storeBytes_csb { s with inbox := rest } a v hend
  rw [Nat.add_assoc] at hi
  refine ⟨m, ?_, fun i hlt hin => ?_, fun b hb => ?_⟩
  · rw [step_write hc (by unfold windowBytes; omega) hi, hostWrite_window (by omega) hmis hrace, hstore]
  · rw [hget, if_pos ⟨by omega, by omega, hin⟩, Nat.add_sub_cancel_left]
  · rw [hget, if_neg (by dsimp only; omega)]

/-- A sample's two bytes, the lower address lower (20_memory.md R55). -/
theorem State.csbSample_of_get {s : State} {x y : Nat} {v : Word}
    (hlo : s.csb.get (2 * (y * s.cfg.w + x)) = some (byteAt v 0))
    (hhi : s.csb.get (2 * (y * s.cfg.w + x) + 1) = some (byteAt v 1)) (k : Nat) :
    s.csbSample x y k = v.setWidth 16 := by
  rw [State.csbSample, Memory.read_of_get hlo, Memory.read_of_get hhi]
  apply BitVec.eq_of_getLsbD_eq
  intro i hi
  by_cases h : i < 8
  · simp [byteAt, h, hi]
  · have hhigh : 8 + (i - 8) = i := by omega
    have hbyte : i - 8 < 8 := by omega
    simp [byteAt, h, hi, hhigh, hbyte]

/-- Samples with the same two bytes are the same. -/
theorem State.csbSample_congr {s t : State} {x y : Nat} (hcfg : t.cfg = s.cfg)
    (hlo : t.csb.get (2 * (y * s.cfg.w + x)) = s.csb.get (2 * (y * s.cfg.w + x)))
    (hhi : t.csb.get (2 * (y * s.cfg.w + x) + 1) = s.csb.get (2 * (y * s.cfg.w + x) + 1)) (k : Nat) :
    t.csbSample x y k = s.csbSample x y k := by
  simp only [State.csbSample, Memory.read, hcfg, hlo, hhi]

/-- A row-major index is that of one row and one column. -/
theorem rowMajor_inj {width x y x' y' : Nat} (hx : x < width) (hx' : x' < width)
    (h : y' * width + x' = y * width + x) : (x', y') = (x, y) := by
  have hdiv := congrArg (· / width) h
  have hmod := congrArg (· % width) h
  simp only [rowMajor_div hx, rowMajor_div hx', rowMajor_mod hx, rowMajor_mod hx'] at hdiv hmod
  rw [hdiv, hmod]

/-- Settles O22: a write stores its bytes, which for a sample are its two and no other sample's; the CSB reads as a
memory of the window. -/
theorem csbReadsAndWritesAreLittleEndian : Obligations.CsbReadsAndWritesAreLittleEndian := by
  intro s rest hc size
  refine ⟨fun a width v hi ha hal hr => ?_, fun x y v hi hx hy hr => ?_, fun a width hi ha hal => ?_⟩
  · obtain ⟨m, hs, hset, hkeep⟩ := step_writeCsb hc hi ha hal hr
    exact ⟨_, hs, rfl, fun i hlt hin => byteAt_eq v i ▸ hset i hlt hin, hkeep⟩
  · have hcell := rowMajor_lt hx hy
    obtain ⟨m, hs, hset, hkeep⟩ := step_writeCsb hc hi (by omega) (Nat.mul_mod_right 2 _) hr
    refine ⟨_, hs, rfl, fun k => ?_, fun x' y' k hx' hy' hne => ?_⟩
    · rw [State.csbSample_of_get (hset 0 (by decide) (by omega)) (hset 1 (by decide) (by omega)),
        BitVec.setWidth_setWidth_of_le v (by decide), BitVec.setWidth_eq]
    · have hother : y' * s.cfg.w + x' ≠ y * s.cfg.w + x := fun h => hne (rowMajor_inj hx hx' h)
      simp only [Width.bytes] at hkeep
      apply State.csbSample_congr
      · rfl
      · exact hkeep _ (by omega)
      · exact hkeep _ (by omega)
  · have hsize := viewport_le hc
    exact step_readMemory s.csb hc hi (fun b k hb => s.windowByte_csb hb k) (by decide) (by decide) (by omega) ha hal

/-! ## Reset -/

theorem State.hostReset_of_idle {s : State} (h : s.seq = .idle) : s.hostReset = s.resetRegisters := by
  simp [State.hostReset, h]

/-- Reset stops a running command with any part of the memories its performance gives. -/
theorem State.hostReset_of_running {s t : State} {word : Word} {i : Instr} (hs : s.seq = .running word)
    (hd : decode word = .command i) (he : exec i (s.useDraws (mixDraws s.cfg)) = .next t) :
    s.hostReset = (s.mixMemories t s.draws).resetRegisters := by
  have hb := State.blockTurn_of_running (s := s.useDraws (mixDraws s.cfg)) hs hd
  simp [State.hostReset, hs, hb, he]

/-- Settles O58: reset of an idle block is the reset of its registers. -/
theorem resetOfAnIdleBlock : Obligations.ResetOfAnIdleBlock := by
  intro s rest hc hs hi
  rw [step_of_turn hc hi]
  exact congrArg Host.Outcome.next (State.hostReset_of_idle (s := { s with inbox := rest }) hs)

/-- A command takes back no byte of OUT: one that is unwritten after it was unwritten before. -/
theorem exec_out_get_none {i : Instr} {s t : State} {a : Nat} (h : exec i s = .next t) (hn : t.out.get a = none) :
    s.out.get a = none := by
  have convert_none {u : State} (hu : u.convert.out.get a = none) : u.out.get a = none := by
    rw [State.convert_get] at hu
    split at hu
    · exact (Option.or_eq_none_iff.mp hu).2
    · exact hu
  obtain ⟨-, rfl⟩ | ⟨-, rfl⟩ | ⟨-, rfl⟩ | ⟨-, rfl⟩ | ⟨-, rfl⟩ | ⟨-, ht⟩ := exec_next h
  · exact hn
  · exact hn
  · exact hn
  · exact convert_none hn
  · exact convert_none (u := s.compose) hn
  · rwa [ht] at hn

/-- A word of OUT after a stopped command is the old one or the new one, as one draw says. -/
theorem State.mixMemories_out_word {s t : State} (hn : ∀ a, t.out.get a = none → s.out.get a = none) (k : Nat)
    {col row : Nat} (hcol : col < s.cfg.outStride) (hrow : row < s.cfg.outRows) :
    (∀ j, j < 4 → (s.mixMemories t k).out.get (outAddr s.cfg col row + j) = s.out.get (outAddr s.cfg col row + j)) ∨
    (∀ j, j < 4 → (s.mixMemories t k).out.get (outAddr s.cfg col row + j) = t.out.get (outAddr s.cfg col row + j)) := by
  cases hr : s.runs writesOut with
  | false =>
    rw [State.mixMemories_out_of_none hr]
    exact .inl fun _ _ => rfl
  | true =>
    have hword : row * s.cfg.outStride + col < s.cfg.outRows * s.cfg.outStride := by
      rw [Nat.mul_comm s.cfg.outRows]
      exact rowMajor_lt hcol hrow
    have hmix (j : Nat) (hj : j < 4) :
        (s.mixMemories t k).out.get (outAddr s.cfg col row + j) =
          (if Config.freeValue 1 (k + s.cfg.w * s.cfg.h + (row * s.cfg.outStride + col)) = 1#1
            then t.out.get (outAddr s.cfg col row + j) else none).or (s.out.get (outAddr s.cfg col row + j)) := by
      have hin : s.cfg.outBase ≤ outAddr s.cfg col row + j ∧
          outAddr s.cfg col row + j < s.cfg.outBase + outBytes s.cfg := by
        unfold outAddr outBytes
        omega
      have hindex : (outAddr s.cfg col row + j - s.cfg.outBase) / 4 = row * s.cfg.outStride + col := by
        unfold outAddr
        omega
      simp only [State.mixMemories, hr, if_true, Memory.get_fill, if_pos hin, hindex]
    by_cases hdraw : Config.freeValue 1 (k + s.cfg.w * s.cfg.h + (row * s.cfg.outStride + col)) = 1#1
    · refine .inr fun j hj => ?_
      rw [hmix j hj, if_pos hdraw]
      cases hg : t.out.get (outAddr s.cfg col row + j) with
      | none => rw [hn _ hg]; rfl
      | some b => rfl
    · refine .inl fun j hj => ?_
      rw [hmix j hj, if_neg hdraw]
      rfl

/-- Settles O59: reset mixes the memories with those of the command's performance, then resets the registers. -/
theorem resetStopsACommand : Obligations.ResetStopsACommand := by
  intro s word i rest hinv hs hd hi
  obtain ⟨u, hu⟩ := exec_answers i (({ s with inbox := rest } : State).useDraws (mixDraws s.cfg))
  have hreset := State.hostReset_of_running (s := { s with inbox := rest }) hs hd hu
  have hstep := (step_of_turn hinv.config hi).trans (congrArg Host.Outcome.next hreset)
  have hout (a : Nat) (hn : u.out.get a = none) : s.out.get a = none := (exec_out_get_none hu hn :)
  refine ⟨_, mixDraws s.cfg, u, hstep, hu, rfl, fun a => ?_, fun col row hcol hrow => ?_⟩
  · obtain h | ⟨-, h⟩ := State.mixMemories_ifb_get { s with inbox := rest } u s.draws a
    · exact .inl h
    · exact .inr h
  · exact State.mixMemories_out_word (s := { s with inbox := rest }) hout s.draws hcol hrow

/-- The encoded word of every command carries its opcode (30_encoding.md R72). -/
theorem opcodeOf_encode (i : Instr) : opcodeOf (encode i) = i.opcode := by
  cases i with
  | nop => exact Laws.Encoding.nop.1
  | clear => exact Laws.Encoding.clear.1
  | compose => exact Laws.Encoding.compose.1
  | convert => exact Laws.Encoding.convert.1
  | frame => exact Laws.Encoding.frame.1
  | unpack idx row col => exact (Laws.Encoding.unpack idx row col).1
  | lut pix => exact (Laws.Encoding.lut pix).1
  | resample xo yo => exact (Laws.Encoding.resample xo yo).1
  | expand sample => exact (Laws.Encoding.expand sample).1

/-- A word with a command's opcode decodes to a command (30_encoding.md R74). -/
theorem decode_of_opcode {w : Word} {i : Instr} (h : opcodeOf w = i.opcode) : ∃ j, decode w = .command j := by
  unfold decode
  cases i <;> simp [h, Instr.opcode]

/-- A CMD write of a command's word to an idle block loads the latches and runs the word (30_encoding.md R70). -/
theorem State.offerCommand_accepts {s : State} {word : Word} {i : Instr} (hs : s.seq = .idle)
    (hd : decode word = .command i) :
    s.offerCommand word = { s with lCtrl := s.ctrl, lScroll := s.scroll, seq := .running word } := by
  simp [State.offerCommand, hs, hd]

/-- Settles O60: the register fields stand in the definition, and an idle block accepts an encoded command. -/
theorem resetStateIsIdle : Obligations.ResetStateIsIdle := by
  refine ⟨rfl, rfl, by decide, rfl, rfl, rfl, rfl, fun i => ?_⟩
  obtain ⟨j, hj⟩ := decode_of_opcode (opcodeOf_encode i)
  refine ⟨_, step_wr32 resetMeetsTheInvariant.config rfl, ?_⟩
  exact congrArg State.seq (State.offerCommand_accepts rfl hj)

end Sys2Proof.Machine

/-!
PROOFS. The memory family: which steps write a memory, which accesses are refused, and what a host access of VRAM, of
the IFB, of an offset with nothing behind it, or of OUT does.
-/

namespace Sys2Proof.Machine

/-! ## What one step can do to the memories -/

/-- What runs is the running word's command. -/
theorem State.runs_of_running {s : State} {word : Word} {i : Instr} (hs : s.seq = .running word)
    (hd : decode word = .command i) (p : Instr → Bool) : s.runs p = p i := by
  simp [State.runs, State.current_of_running hs hd]

/-- All four memories of `t` are those of `s`. -/
structure KeepsMemories (s t : State) : Prop where
  vram : t.vram = s.vram
  csb : t.csb = s.csb
  ifb : t.ifb = s.ifb
  out : t.out = s.out

/-- From `s` to `t` no memory changes except those that the running command of `s` writes (20_memory.md R51). -/
structure OnlyCommandWrites (s t : State) : Prop where
  vram : t.vram = s.vram
  csb : t.csb = s.csb
  ifb : s.runs writesIfb = false → t.ifb = s.ifb
  out : s.runs writesOut = false → t.out = s.out

/-- What a step from `s` to `t` does to the memories, by the kind of step. -/
inductive MemoryEffect (s t : State) : Prop where
  /-- A host write, which spares what the running command reads (20_memory.md R64 item 1). -/
  | stored {addr : Nat} {width : Width} {v : Word} {rest : List Turn} (turn : s.inbox = .write addr width v :: rest)
      (vram : s.runs readsVram = true → t.vram = s.vram) (csb : s.runs (readsCsb s.cmode) = true → t.csb = s.csb)
      (ifb : t.ifb = s.ifb) (out : t.out = s.out)
  /-- An outside write to OUT. -/
  | storedOut {addr : Nat} {v : Word} {rest : List Turn} (turn : s.inbox = .outWrite addr v :: rest)
      (quiet : s.runs writesOut = false) (vram : t.vram = s.vram) (csb : t.csb = s.csb) (ifb : t.ifb = s.ifb)
  /-- The running command is performed, or reset stops it. -/
  | commanded (turn : s.blockMoves ∨ ∃ rest, s.inbox = .reset :: rest) (writes : OnlyCommandWrites s t)
  /-- Any other step. -/
  | kept (keeps : KeepsMemories s t)

theorem OnlyCommandWrites.refl (s : State) : OnlyCommandWrites s s := ⟨rfl, rfl, fun _ => rfl, fun _ => rfl⟩

/-- The turns still to come do not matter. -/
theorem OnlyCommandWrites.of_withInbox {s t : State} {turns : List Turn}
    (h : OnlyCommandWrites { s with inbox := turns } t) : OnlyCommandWrites s t := ⟨h.vram, h.csb, h.ifb, h.out⟩

/-- The frame of a command says that it writes the memories 20_memory.md R51 names for it. -/
theorem State.blockTurn_onlyCommandWrites {s t : State} (h : s.blockTurn = .next t) : OnlyCommandWrites s t := by
  obtain ⟨-, rfl⟩ | ⟨word, i, hs, hd, he⟩ := State.blockTurn_next h
  · exact .refl _
  · obtain ⟨ht, -, hifb, hout⟩ := exec_frame he
    refine ⟨by rw [ht], by rw [ht], fun hr => ?_, fun hr => ?_⟩ <;> rw [State.runs_of_running hs hd] at hr
    · apply hifb <;> rintro rfl <;> cases hr
    · apply hout <;> rintro rfl <;> cases hr

/-- Reset mixes in what the command it stops would have written, and no more. -/
theorem State.hostReset_onlyCommandWrites (s : State) : OnlyCommandWrites s s.hostReset := by
  obtain e | ⟨word, t, -, -, e⟩ := s.hostReset_cases <;> rw [e]
  · exact ⟨rfl, rfl, fun _ => rfl, fun _ => rfl⟩
  · exact ⟨rfl, rfl, fun hr => State.mixMemories_ifb_of_none hr t _, fun hr => State.mixMemories_out_of_none hr t _⟩

theorem State.offerCommand_keepsMemories (s : State) (word : Word) : KeepsMemories s (s.offerCommand word) := by
  obtain ⟨-, e⟩ | ⟨-, -, e⟩ | ⟨-, -, e⟩ := s.offerCommand_cases word <;> rw [e] <;> exact ⟨rfl, rfl, rfl, rfl⟩

theorem State.writeRegister_keepsMemories (s : State) (off : Nat) (v : Word) :
    KeepsMemories s (s.writeRegister off v) := by
  obtain ⟨-, e⟩ | ⟨-, e⟩ | ⟨-, e⟩ | ⟨-, e⟩ | e := s.writeRegister_cases off v <;> rw [e]
  case inr.inr.inl => exact s.offerCommand_keepsMemories v
  all_goals exact ⟨rfl, rfl, rfl, rfl⟩

/-- A byte that names no VRAM byte, when it is stored, leaves VRAM. -/
theorem State.storeByte_vram_of_none {s : State} {off : Nat} (h : vramAt s.cfg off = none) (b : Byte) :
    (s.storeByte off b).vram = s.vram := by
  simp only [State.storeByte, h]
  split <;> rfl

/-- A byte that names no CSB byte, when it is stored, leaves the CSB. -/
theorem State.storeByte_csb_of_none {s : State} {off : Nat} (h : csbAt s.cfg off = none) (b : Byte) :
    (s.storeByte off b).csb = s.csb := by
  simp only [State.storeByte, h]
  split <;> rfl

/-- A byte that races with nothing names no VRAM byte while a command that reads VRAM runs. -/
theorem State.vramAt_of_no_race {s : State} {off : Nat} (h : s.raceAt off = none) (hr : s.runs readsVram = true) :
    vramAt s.cfg off = none := by
  by_contra hne
  simp [State.raceAt, hr, Option.isSome_iff_ne_none.mpr hne] at h

/-- A byte that races with nothing names no CSB byte while a command that reads the CSB runs. -/
theorem State.csbAt_of_no_race {s : State} {off : Nat} (h : s.raceAt off = none)
    (hr : s.runs (readsCsb s.cmode) = true) : csbAt s.cfg off = none := by
  by_contra hne
  simp only [State.raceAt, hr, Option.isSome_iff_ne_none.mpr hne] at h
  split at h <;> cases h

/-- What every byte of a write leaves, stored one by one, the whole write leaves. -/
theorem State.storeBytes_keeps {α : Type} (part : State → α) {s : State} {off n : Nat} (v : Word)
    (h : ∀ i, i < n → ∀ (u : State) (b : Byte), u.cfg = s.cfg → part (u.storeByte (off + i) b) = part u) :
    part (s.storeBytes off v n) = part s := by
  induction n with
  | zero => rfl
  | succ n ih => exact (h n (by omega) _ _ (s.storeBytes_cfg off v n)).trans (ih fun i hi => h i (by omega))

/-- A write that races with nothing leaves VRAM while a command that reads VRAM runs. -/
theorem State.storeBytes_keeps_vram {s : State} {off n : Nat} (h : s.raceIn off n = none)
    (hr : s.runs readsVram = true) (v : Word) : (s.storeBytes off v n).vram = s.vram := by
  rw [State.raceIn_eq_none] at h
  refine State.storeBytes_keeps State.vram v fun i hi u b hu => State.storeByte_vram_of_none ?_ b
  rw [hu, State.vramAt_of_no_race (h i hi) hr]

/-- A write that races with nothing leaves the CSB while a command that reads the CSB runs. -/
theorem State.storeBytes_keeps_csb {s : State} {off n : Nat} (h : s.raceIn off n = none)
    (hr : s.runs (readsCsb s.cmode) = true) (v : Word) : (s.storeBytes off v n).csb = s.csb := by
  rw [State.raceIn_eq_none] at h
  refine State.storeBytes_keeps State.csb v fun i hi u b hu => State.storeByte_csb_of_none ?_ b
  rw [hu, State.csbAt_of_no_race (h i hi) hr]

/-- Everything a step can do to the memories. -/
theorem step_memoryEffect {s t : State} (h : step s = .next t) : MemoryEffect s t := by
  obtain ⟨-, ⟨u, rest, hi, hu⟩ | ⟨hi, hb⟩⟩ := step_cases h
  · obtain ⟨-, ht⟩ | ⟨addr, v, -, -, rfl⟩ | ⟨addr, width, v, rfl, -, hr, rfl⟩ | ⟨addr, v, rfl, -, hr, rfl⟩ |
      ⟨rfl, rfl⟩ | ⟨rfl, hb⟩ := takeTurn_next hu
    · exact .kept (ht ▸ ⟨rfl, rfl, rfl, rfl⟩)
    · have keeps := State.writeRegister_keepsMemories { s with inbox := rest } (addr - s.cfg.blockBase) v
      exact .kept ⟨keeps.vram, keeps.csb, keeps.ifb, keeps.out⟩
    · obtain ⟨vram, csb, e⟩ := State.storeBytes_only { s with inbox := rest } (addr - s.cfg.blockBase) v width.bytes
      exact .stored hi (State.storeBytes_keeps_vram hr · v) (State.storeBytes_keeps_csb hr · v)
        (by rw [e]) (by rw [e])
    · exact .storedOut hi hr rfl rfl rfl
    · exact .commanded (.inr ⟨rest, hi⟩) (State.hostReset_onlyCommandWrites _).of_withInbox
    · exact .commanded (.inl (.inr ⟨rest, hi⟩)) (State.blockTurn_onlyCommandWrites hb).of_withInbox
  · exact .commanded (.inl (.inl hi)) (State.blockTurn_onlyCommandWrites hb)

/-- Settles O57: of the steps that touch a memory, host writes race with what a running command reads, and performance
and reset write what the command writes. -/
theorem memoriesHaveTheirWriters : Obligations.MemoriesHaveTheirWriters := by
  intro s t h
  cases step_memoryEffect h with
  | @stored addr width v rest turn vram csb ifb out =>
    exact ⟨fun hne => ⟨Bool.eq_false_iff.mpr fun hr => hne (vram hr), addr, width, v, rest, turn⟩,
      fun hne => ⟨Bool.eq_false_iff.mpr fun hr => hne (csb hr), addr, width, v, rest, turn⟩,
      (absurd ifb ·), (absurd out ·)⟩
  | @storedOut addr v rest turn quiet vram csb ifb =>
    exact ⟨(absurd vram ·), (absurd csb ·), (absurd ifb ·), fun _ => .inr ⟨quiet, addr, v, rest, turn⟩⟩
  | commanded turn writes =>
    exact ⟨(absurd writes.vram ·), (absurd writes.csb ·),
      fun hne => ⟨Bool.ne_false_iff.mp fun hr => hne (writes.ifb hr), turn⟩,
      fun hne => .inl ⟨Bool.ne_false_iff.mp fun hr => hne (writes.out hr), turn⟩⟩
  | kept keeps =>
    exact ⟨(absurd keeps.vram ·), (absurd keeps.csb ·), (absurd keeps.ifb ·), (absurd keeps.out ·)⟩

/-! ## Refused accesses -/

theorem hostRead_badRegister {s : State} {off : Nat} {width : Width} (h : off < 0x1000)
    (hbad : ¬ (width = .w32 ∧ off % 4 = 0)) : hostRead s off width = .refused .badRegisterAccess := by
  rw [hostRead, if_pos h, if_neg hbad]

theorem hostWrite_badRegister {s : State} {off : Nat} {width : Width} (h : off < 0x1000)
    (hbad : ¬ (width = .w32 ∧ off % 4 = 0)) (v : Word) : hostWrite s off width v = .refused .badRegisterAccess := by
  rw [hostWrite, if_pos h, if_neg hbad]

theorem hostRead_misaligned {s : State} {off : Nat} {width : Width} (h : ¬ off < 0x1000)
    (hmis : misaligned off width.bytes = true) : hostRead s off width = .refused .misalignedAccess := by
  rw [hostRead, if_neg h, if_pos hmis]

theorem hostWrite_misaligned {s : State} {off : Nat} {width : Width} (h : ¬ off < 0x1000)
    (hmis : misaligned off width.bytes = true) (v : Word) : hostWrite s off width v = .refused .misalignedAccess := by
  rw [hostWrite, if_neg h, if_pos hmis]

/-- An offset in the ranges of VRAM, CSB and IFB is not unmapped (20_memory.md R50). -/
theorem regionOf_mapped {off : Nat} (h : 0x2000 ≤ off ∧ off < 0x4000 ∨ 0x20000 ≤ off ∧ off < 0x50000) :
    regionOf off ≠ .unmapped := by
  obtain ⟨h1, h2⟩ | ⟨h1, h2⟩ := h
  · simp [regionOf_vram h1 h2]
  · by_cases h3 : off < 0x40000
    · simp [regionOf_csb h1 h3]
    · simp [regionOf_ifb (Nat.le_of_not_lt h3) h2]

theorem misaligned_of_mapped {off n : Nat} (h : off % n ≠ 0) (hr : regionOf off ≠ .unmapped) :
    misaligned off n = true := by
  simp [misaligned, h, hr]

/-- Settles O19: the register window takes whole words alone, and a range with a memory behind it aligned accesses
alone. -/
theorem badAccessesAreRefused : Obligations.BadAccessesAreRefused := by
  intro s off width v rest hc hi
  constructor
  · intro h hbad
    have hoff : off < windowBytes := by unfold windowBytes; omega
    obtain hi | hi := hi
    · rw [step_read hc hoff hi, hostRead_badRegister h hbad]
    · rw [step_write hc hoff hi, hostWrite_badRegister h hbad]
  · intro h hbad
    have hoff : off < windowBytes := by unfold windowBytes; omega
    have hmis := misaligned_of_mapped hbad (regionOf_mapped h)
    obtain hi | hi := hi
    · rw [step_read hc hoff hi, hostRead_misaligned (by omega) hmis]
    · rw [step_write hc hoff hi, hostWrite_misaligned (by omega) hmis]

/-! ## Host accesses of the memory windows -/

/-- Alignment in a memory whose base is a multiple of 4 is alignment in the window. -/
theorem misaligned_of_base (width : Width) {base a : Nat} (hbase : base % 4 = 0) (h : a % width.bytes = 0) :
    misaligned (base + a) width.bytes = false :=
  misaligned_of_aligned ((base_mod_bytes width a hbase).trans h)

/-- A host read past the register window that is allowed answers its bytes. -/
theorem step_readWindow {s : State} {off : Nat} {width : Width} {rest : List Turn} (hc : validConfig s.cfg = true)
    (hlo : 0x1000 ≤ off) (hhi : off < windowBytes) (hmis : misaligned off width.bytes = false)
    (hi : s.inbox = .read (s.cfg.blockBase + off) width :: rest) :
    step s = .next { s with
      inbox := rest, answer := some (joinBytes width fun i => s.windowByte (off + i) (s.draws + i)),
      draws := s.draws + 4 } := by
  rw [step_read hc hhi hi, hostRead_window (by omega) hmis]
  rfl

/-- A host write past the register window that is allowed and races with nothing stores its bytes. -/
theorem step_writeWindow {s : State} {off : Nat} {width : Width} {v : Word} {rest : List Turn}
    (hc : validConfig s.cfg = true) (hlo : 0x1000 ≤ off) (hhi : off < windowBytes)
    (hmis : misaligned off width.bytes = false) (hrace : s.raceIn off width.bytes = none)
    (hi : s.inbox = .write (s.cfg.blockBase + off) width v :: rest) :
    step s = .next (({ s with inbox := rest } : State).storeBytes off v width.bytes) := by
  have hrace' : ({ s with inbox := rest } : State).raceIn off width.bytes = none := by
    rw [State.raceIn_eq_none] at hrace ⊢
    exact hrace
  rw [step_write hc hhi hi, hostWrite_window (by omega) hmis hrace']

/-- A host write whose every byte names no byte of VRAM and none of the CSB changes nothing. -/
theorem step_writeNowhere {s : State} {off : Nat} {width : Width} {v : Word} {rest : List Turn}
    (hc : validConfig s.cfg = true) (hlo : 0x1000 ≤ off) (hhi : off < windowBytes)
    (hmis : misaligned off width.bytes = false)
    (hat : ∀ i, i < width.bytes → vramAt s.cfg (off + i) = none ∧ csbAt s.cfg (off + i) = none)
    (hi : s.inbox = .write (s.cfg.blockBase + off) width v :: rest) : step s = .next { s with inbox := rest } := by
  have hrace : s.raceIn off width.bytes = none := by
    rw [State.raceIn_eq_none]
    intro i hlt
    simp [State.raceAt, hat i hlt]
  rw [step_writeWindow hc hlo hhi hmis hrace hi]
  exact congrArg _ (State.storeBytes_nowhere { s with inbox := rest } off v hat)

/-- A host write whose first byte races faults. -/
theorem step_writeRace {s : State} {off : Nat} {width : Width} {v : Word} {rest : List Turn} {f : Fault}
    (hc : validConfig s.cfg = true) (hlo : 0x1000 ≤ off) (hhi : off < windowBytes)
    (hmis : misaligned off width.bytes = false) (hrace : s.raceAt off = some f)
    (hi : s.inbox = .write (s.cfg.blockBase + off) width v :: rest) : step s = .fault f := by
  rw [step_write hc hhi hi]
  exact hostWrite_race (s := { s with inbox := rest }) (by omega) hmis hrace v

/-! ### VRAM -/

/-- A host write at a VRAM offset races with nothing while no command that reads VRAM runs. -/
theorem State.raceIn_vram {s : State} {a n : Nat} (h : a + n ≤ 0x2000) (hr : s.runs readsVram = false) :
    s.raceIn (0x2000 + a) n = none := by
  rw [State.raceIn_eq_none]
  intro i hi
  obtain ⟨-, hcsb, -⟩ := at_vram s.cfg (a := a + i) (by omega)
  rw [← Nat.add_assoc] at hcsb
  simp [State.raceAt, hcsb, hr]

/-- Settles O20: the write races with nothing, so its bytes are stored. -/
theorem vramWritesStoreLittleEndian : Obligations.VramWritesStoreLittleEndian := by
  intro s a width v rest hc hi ha hal hr
  have hsize := vramSize_le hc
  have hend := access_end_le width (n := 0x2000) (by omega) (by decide) hal
  have hmis := misaligned_of_base width (base := 0x2000) (by decide) hal
  obtain ⟨m, hstore, hget⟩ := State.storeBytes_vram { s with inbox := rest } a v hend
  rw [Nat.add_assoc] at hi
  refine ⟨{ s with inbox := rest, vram := m }, ?_, rfl, fun i hlt hin => ?_, fun b hb => ?_⟩
  · rw [step_writeWindow hc (by omega) (by unfold windowBytes; omega) hmis (State.raceIn_vram hend hr) hi, hstore]
  · rw [← byteAt_eq, hget, if_pos ⟨by omega, by omega, hin⟩, Nat.add_sub_cancel_left]
  · rw [hget, if_neg (by dsimp only; omega)]

/-! ### Races -/

theorem State.raceAt_vram {s : State} {a : Nat} (hsize : s.cfg.vramSize ≤ 0x2000) (ha : a < s.cfg.vramSize)
    (hr : s.runs readsVram = true) : s.raceAt (0x2000 + a) = some .vramRace := by
  obtain ⟨hvram, -, -⟩ := at_vram s.cfg (a := a) (by omega)
  simp [State.raceAt, hvram, ha, hr]

theorem State.raceAt_csb {s : State} {a : Nat} (hsize : s.cfg.w * s.cfg.h ≤ 65536) (ha : a < 2 * (s.cfg.w * s.cfg.h))
    (hr : s.runs (readsCsb s.cmode) = true) : s.raceAt (0x20000 + a) = some .csbRace := by
  obtain ⟨hvram, hcsb, -⟩ := at_csb s.cfg (a := a) (by omega)
  simp [State.raceAt, hvram, hcsb, ha, hr]

/-- Settles O25: a write that covers a byte of the memory has its first byte there too, and that byte races. -/
theorem racingWritesFault : Obligations.RacingWritesFault := by
  intro s word i a width v rest hc hs hd hal
  constructor
  · rintro hreads ⟨j, -, hin⟩ hi
    have hsize := vramSize_le hc
    have hruns : s.runs readsVram = true := by
      rw [State.runs_of_running hs hd]
      obtain rfl | rfl | ⟨idx, row, col, rfl⟩ := hreads <;> rfl
    exact step_writeRace hc (by omega) (by unfold windowBytes; omega) (misaligned_of_base width (by decide) hal)
      (State.raceAt_vram hsize (by omega) hruns) (Nat.add_assoc _ _ a ▸ hi)
  · rintro hreads hmode ⟨j, -, hin⟩ hi
    have hsize := viewport_le hc
    have hruns : s.runs (readsCsb s.cmode) = true := by
      rw [State.runs_of_running hs hd]
      obtain rfl | rfl := hreads <;> exact hmode
    exact step_writeRace hc (by omega) (by unfold windowBytes; omega) (misaligned_of_base width (by decide) hal)
      (State.raceAt_csb hsize (by omega) hruns) (Nat.add_assoc _ _ a ▸ hi)

/-! ### The IFB -/

/-- The host reads a written cell as it stands while no command that writes the IFB runs. -/
theorem State.hostCell_of_get {s : State} {cell : Nat} {q : Pixel} (hr : s.runs writesIfb = false)
    (h : s.ifb.get cell = some q) (k : Nat) : s.hostCell cell k = q := by
  simp [State.hostCell, hr, Memory.read_of_get h]

/-- An aligned read at a cell of the IFB answers the composition of the cells as the host reads them, 0 past the
last. -/
theorem step_readIfb {s : State} {a : Nat} {width : Width} {rest : List Turn} (hc : validConfig s.cfg = true)
    (hi : s.inbox = .read (s.cfg.blockBase + 0x40000 + a) width :: rest) (ha : a < s.cfg.w * s.cfg.h)
    (hal : a % width.bytes = 0) :
    ∃ f : Nat → Byte,
      step s = .next { s with inbox := rest, answer := some (joinBytes width f), draws := s.draws + 4 } ∧
      ∀ i, i < width.bytes →
        f i = if a + i < s.cfg.w * s.cfg.h then (s.hostCell (a + i) (s.draws + i)).setWidth 8 else 0 := by
  have hsize := viewport_le hc
  have hend := access_end_le width (n := 0x10000) (by omega) (by decide) hal
  have hmis := misaligned_of_base width (base := 0x40000) (by decide) hal
  rw [Nat.add_assoc] at hi
  refine ⟨_, step_readWindow hc (by omega) (by unfold windowBytes; omega) hmis hi, fun i hlt => ?_⟩
  rw [Nat.add_assoc]
  exact s.windowByte_ifb (by omega) _

/-- Settles O23: cells are read through `hostCell`, and no IFB offset names a byte of VRAM or the CSB. -/
theorem ifbWindowIsReadOnly : Obligations.IfbWindowIsReadOnly := by
  intro s rest hc
  refine ⟨fun x y hi hx hy => ?_, fun a width hi ha hal => ?_, fun off width v hlo hhi hal hi => ?_⟩
  · obtain ⟨f, hstep, hf⟩ := step_readIfb hc hi (rowMajor_lt hx hy) (Nat.mod_one _)
    refine ⟨_, s.hostCell (y * s.cfg.w + x) s.draws, hstep, ?_, fun hr q hq => State.hostCell_of_get hr hq _⟩
    have h0 := (hf 0 (by decide)).trans (if_pos (rowMajor_lt hx hy))
    simp [joinBytes, h0, place]
  · obtain ⟨f, hstep, hf⟩ := step_readIfb hc hi ha hal
    refine ⟨_, _, f, hstep, rfl, joinBytes_littleEndian width f, fun i hlt => ⟨fun hin => ?_, fun hout => ?_⟩⟩
    · exact ⟨_, (hf i hlt).trans (if_pos hin), fun hr q hq => State.hostCell_of_get hr hq _⟩
    · exact (hf i hlt).trans (if_neg (by omega))
  · have hmis := misaligned_of_aligned hal
    refine step_writeNowhere hc (by omega) (by unfold windowBytes; omega) hmis (fun i hlt => ?_) hi
    have hend := access_end_le width (a := off) (n := 0x50000) hhi (by decide) hal
    obtain ⟨hvram, hcsb, -⟩ := at_ifb s.cfg (a := off - 0x40000 + i) (by omega)
    have e : 0x40000 + (off - 0x40000 + i) = off + i := by omega
    exact e ▸ ⟨hvram, hcsb⟩

/-! ### Offsets with nothing behind them -/

/-- The unmapped ranges between those of the memories (20_memory.md R50). -/
theorem regionOf_gap {off : Nat} (h : 0x1000 ≤ off ∧ off < 0x2000 ∨ 0x4000 ≤ off ∧ off < 0x20000) :
    regionOf off = .unmapped := by
  unfold regionOf
  obtain ⟨h1, h2⟩ | ⟨h1, h2⟩ := h
  · rw [if_neg (by omega), if_pos (by omega)]
  · rw [if_neg (by omega), if_neg (by omega), if_neg (by omega), if_pos (by omega)]

/-- An offset in an unmapped range names no byte of any memory. -/
theorem at_gap (c : Config) {off : Nat} (h : 0x1000 ≤ off ∧ off < 0x2000 ∨ 0x4000 ≤ off ∧ off < 0x20000) :
    vramAt c off = none ∧ csbAt c off = none ∧ ifbAt c off = none := by
  simp [vramAt, csbAt, ifbAt, regionOf_gap h]

/-- An offset in a memory's range past its configured size names no byte of any memory. -/
theorem at_beyond (c : Config) {off : Nat}
    (h : 0x2000 + c.vramSize ≤ off ∧ off < 0x4000 ∨ 0x20000 + 2 * (c.w * c.h) ≤ off ∧ off < 0x40000 ∨
      0x40000 + c.w * c.h ≤ off ∧ off < 0x50000) :
    vramAt c off = none ∧ csbAt c off = none ∧ ifbAt c off = none := by
  obtain ⟨h1, h2⟩ | ⟨h1, h2⟩ | ⟨h1, h2⟩ := h
  · obtain ⟨a, rfl⟩ := Nat.exists_eq_add_of_le (Nat.le_of_add_right_le h1)
    have hat := at_vram c (a := a) (by omega)
    rwa [if_neg (by omega)] at hat
  · obtain ⟨a, rfl⟩ := Nat.exists_eq_add_of_le (Nat.le_of_add_right_le h1)
    have hat := at_csb c (a := a) (by omega)
    rwa [if_neg (by omega)] at hat
  · obtain ⟨a, rfl⟩ := Nat.exists_eq_add_of_le (Nat.le_of_add_right_le h1)
    have hat := at_ifb c (a := a) (by omega)
    rwa [if_neg (by omega)] at hat

theorem State.windowByte_nowhere {s : State} {off : Nat}
    (h : vramAt s.cfg off = none ∧ csbAt s.cfg off = none ∧ ifbAt s.cfg off = none) (k : Nat) :
    s.windowByte off k = 0 := by
  simp [State.windowByte, h]

/-- Zero bytes compose to zero. -/
theorem joinBytes_zero {width : Width} {b : Nat → Byte} (h : ∀ i, i < width.bytes → b i = 0) :
    joinBytes width b = 0#32 := by
  cases width with
  | w8 => rw [joinBytes, h 0 (by decide)]; rfl
  | w16 => rw [joinBytes, h 0 (by decide), h 1 (by decide)]; rfl
  | w32 => rw [joinBytes, h 0 (by decide), h 1 (by decide), h 2 (by decide), h 3 (by decide)]; rfl

/-- Where the first and the last byte of an access are unmapped it may be misaligned (log 15). -/
theorem misaligned_of_unmapped {off n : Nat} (hfirst : regionOf off = .unmapped)
    (hlast : regionOf (off + n - 1) = .unmapped) : misaligned off n = false := by
  simp [misaligned, hfirst, hlast]

/-- Settles O24: no byte of the access names a byte of any memory. -/
theorem unmappedOffsetsReadZero : Obligations.UnmappedOffsetsReadZero := by
  intro s off width rest hc gap beyond hall hallowed
  have hsome : 0 < width.bytes := by cases width <;> decide
  have hrange : 0x1000 ≤ off ∧ off < windowBytes := by
    have h0 := hall 0 hsome
    simp only [gap, beyond, Nat.add_zero] at h0
    unfold windowBytes
    omega
  have hat (i : Nat) (hlt : i < width.bytes) :
      vramAt s.cfg (off + i) = none ∧ csbAt s.cfg (off + i) = none ∧ ifbAt s.cfg (off + i) = none :=
    (hall i hlt).elim (at_gap s.cfg) (at_beyond s.cfg)
  have hmis : misaligned off width.bytes = false := by
    obtain hal | hgap := hallowed
    · exact misaligned_of_aligned hal
    · refine misaligned_of_unmapped (regionOf_gap (hgap 0 hsome)) ?_
      rw [Nat.add_sub_assoc hsome]
      exact regionOf_gap (hgap (width.bytes - 1) (by omega))
  constructor
  · intro hi
    refine ⟨_, step_readWindow hc hrange.1 hrange.2 hmis hi, ?_⟩
    rw [joinBytes_zero fun i hlt => State.windowByte_nowhere (hat i hlt) _]
  · intro v hi
    exact step_writeNowhere hc hrange.1 hrange.2 hmis (fun i hlt => ⟨(hat i hlt).1, (hat i hlt).2.1⟩) hi

/-! ## Reads change nothing -/

theorem takeTurn_read_next {s t : State} {addr : Nat} {width : Width} (h : takeTurn (.read addr width) s = .next t) :
    t = { s with answer := t.answer, draws := t.draws } := by
  simp only [takeTurn] at h
  split at h
  · exact hostRead_next h
  · cases h

/-- Settles O26: both reads answer by `answer` and the draws alone. -/
theorem readsHaveNoSideEffect : Obligations.ReadsHaveNoSideEffect := by
  intro s t rest hread h
  obtain ⟨hc, -⟩ := step_cases h
  obtain ⟨addr, width, hi⟩ | ⟨addr, hi⟩ := hread
  · rw [step_of_turn hc hi] at h
    exact takeTurn_read_next h
  · rw [step_of_turn hc hi] at h
    exact outRead_next h

/-! ## OUT from outside -/

/-- `OUT(col, row)` is an aligned word of OUT (20_memory.md R56). -/
theorem inOut_outAddr (c : Config) {col row : Nat} (hcol : col < c.outStride) (hrow : row < c.outRows) :
    inOut c (outAddr c col row) = true := by
  have hword := rowMajor_lt hcol hrow
  rw [Nat.mul_comm c.outStride] at hword
  simp only [inOut, Bool.and_eq_true, decide_eq_true_eq]
  unfold outAddr outBytes
  omega

/-- While a command that writes OUT runs, a read of an OUT word answers the word that stands there or the one the
command's performance leaves there (20_memory.md R64 item 3). -/
theorem outRead_racing {s u : State} {addr : Nat} (h : inOut s.cfg addr = true) (hr : s.runs writesOut = true)
    (hu : (s.useDraws 1).blockTurn = .next u) :
    ∃ w, outRead s addr = .next { s with answer := some w, draws := u.draws } ∧
      (w = s.out.outWord addr ∨ w = u.out.outWord addr) := by
  by_cases hdraw : Config.freeValue 1 s.draws = 1#1
  · exact ⟨_, by simp [outRead, h, hr, hu, hdraw], .inr rfl⟩
  · exact ⟨_, by simp [outRead, h, hr, hu, hdraw], .inl rfl⟩

/-- A word that stands in OUT is what a read composes. -/
theorem HoldsWord.outWord {m : Memory 8} {a : Nat} {v : Word} (h : HoldsWord m a v) : m.outWord a = v := by
  apply BitVec.eq_of_toNat_eq
  have hv := v.isLt
  rw [Memory.outWord, joinBytes_w32, Memory.outByte_of_get (h 0 (by decide)), Memory.outByte_of_get (h 1 (by decide)),
    Memory.outByte_of_get (h 2 (by decide)), Memory.outByte_of_get (h 3 (by decide))]
  simp only [BitVec.toNat_ofNat]
  omega

/-- Settles O27: while the command runs a draw picks the old word or the new one; else the answer is a function of what
OUT holds. -/
theorem outReadsSeeOldOrNew : Obligations.OutReadsSeeOldOrNew := by
  intro s col row rest hc hcol hrow hi
  have hin := inOut_outAddr s.cfg hcol hrow
  constructor
  · intro word i hs hd hwrites
    have hruns : s.runs writesOut = true := by
      rw [State.runs_of_running hs hd]
      obtain rfl | rfl := hwrites <;> rfl
    obtain ⟨u, hu⟩ := exec_answers i (({ s with inbox := rest } : State).useDraws 1)
    have hb := (State.blockTurn_of_running (s := ({ s with inbox := rest } : State).useDraws 1) hs hd).trans hu
    obtain ⟨w, hread, hw⟩ := outRead_racing (s := { s with inbox := rest }) hin hruns hb
    exact ⟨_, 1, u, (step_of_turn hc hi).trans hread, hu, hw.imp (congrArg some) (congrArg some)⟩
  · intro hr
    refine ⟨s.out.outWord (outAddr s.cfg col row), ?_, fun v hv => hv.outWord, ?_⟩
    · exact (step_of_turn hc hi).trans (outRead_quiet (s := { s with inbox := rest }) hin hr)
    · intro later more hcfg hout hlater hmore
      rw [← hout]
      exact (step_of_turn (by rwa [hcfg]) hmore).trans
        (outRead_quiet (s := { later with inbox := more }) (show inOut later.cfg _ = true by rwa [hcfg]) hlater)

/-- After a word is written it stands there, byte by byte. -/
theorem Memory.holdsWord_setWord (m : Memory 8) (a : Nat) (v : Word) : HoldsWord (m.setWord a v) a v := by
  intro i hi
  rw [← byteAt_eq]
  unfold Memory.setWord
  simp only [Memory.get_set]
  interval_cases i <;> simp

/-- A word write leaves every byte outside the word. -/
theorem Memory.get_setWord_other (m : Memory 8) {a b : Nat} (v : Word) (h : b < a ∨ a + 4 ≤ b) :
    (m.setWord a v).get b = m.get b := by
  unfold Memory.setWord
  rw [Memory.get_set_other _ _ (by omega), Memory.get_set_other _ _ (by omega), Memory.get_set_other _ _ (by omega),
    Memory.get_set_other _ _ (by omega)]

theorem outWrite_quiet {s : State} {addr : Nat} (h : inOut s.cfg addr = true) (hr : s.runs writesOut = false)
    (v : Word) : outWrite s addr v = .next { s with out := s.out.setWord addr v } := by
  simp [outWrite, h, hr]

/-- Settles O28: the write is `setWord` on OUT. -/
theorem outsideWritesStoreOutWords : Obligations.OutsideWritesStoreOutWords := by
  intro s col row v rest hc hcol hrow hr hi
  have hwrite := outWrite_quiet (s := { s with inbox := rest }) (inOut_outAddr s.cfg hcol hrow) hr v
  exact ⟨_, (step_of_turn hc hi).trans hwrite, rfl, Memory.holdsWord_setWord _ _ _,
    fun b hb => Memory.get_setWord_other _ v hb⟩

end Sys2Proof.Machine

/-!
PROOFS. The encoding family: fields placed and read back, what `decode` answers by the opcode and the fields it reads,
which bits of a word it ignores, the assembler's sums; and the acceptance of a command word by the block.
-/

namespace Sys2Proof

/-! ## Fields of a word -/

/-- A field read where it was placed. -/
theorem extract_place {w lo : Nat} (h : w + lo ≤ 32) (v : BitVec w) : (place lo v).extractLsb' lo w = v := by
  apply BitVec.eq_of_toNat_eq
  rw [BitVec.extractLsb'_toNat, place_toNat h, Nat.shiftRight_eq_div_pow, Nat.mul_div_cancel _ (Nat.two_pow_pos lo),
    Nat.mod_eq_of_lt v.isLt]

/-- A field read apart from where another was placed is 0. -/
theorem extract_place_apart {w n lo lo' : Nat} (h : lo + n ≤ lo' ∨ lo' + w ≤ lo) (v : BitVec w) :
    (place lo' v).extractLsb' lo n = 0#n := by
  apply BitVec.eq_of_getLsbD_eq
  intro i hi
  rw [BitVec.getLsbD_extractLsb', place_getLsbD, BitVec.getLsbD_zero]
  obtain h | h := h
  · have hlow : ¬ lo' ≤ lo + i := by omega
    simp [hlow]
  · have hhigh : w ≤ lo + i - lo' := by omega
    simp [BitVec.getLsbD_of_ge v _ hhigh]

/-- A field of a word, placed where it was read, is the word with every other bit cleared. -/
theorem place_extract (w : Word) (lo n : Nat) :
    place lo (w.extractLsb' lo n) = w &&& place lo (BitVec.allOnes n) := by
  apply BitVec.eq_of_getLsbD_eq
  intro i hi
  rw [BitVec.getLsbD_and, place_getLsbD, place_getLsbD, BitVec.getLsbD_extractLsb', BitVec.getLsbD_allOnes]
  by_cases hlo : lo ≤ i
  · simp [hlo, hi, Nat.add_sub_cancel' hlo, Bool.and_comm]
  · simp [hlo]

/-- Bits set under a mask that spares a field leave the field. -/
theorem extract_or_masked {lo n : Nat} {mask : Word} (h : mask.extractLsb' lo n = 0#n) (w m : Word) :
    (w ||| (m &&& mask)).extractLsb' lo n = w.extractLsb' lo n := by
  rw [BitVec.extractLsb'_or, BitVec.extractLsb'_and, h, BitVec.and_zero, BitVec.or_zero]

/-! ## What the decoder answers -/

/-- The command of `i`'s opcode with its operands read from `w` by its format (30_encoding.md R73, R74). -/
def Instr.readFrom (w : Word) : Instr → Instr
  | .nop => .nop
  | .clear => .clear
  | .compose => .compose
  | .convert => .convert
  | .frame => .frame
  | .unpack _ _ _ => .unpack (idxOf w) (rowOf w) (colOf w)
  | .lut _ => .lut (pixOf w)
  | .resample _ _ => .resample (xoOf w) (yoOf w)
  | .expand _ => .expand (sampleOf w)

@[simp] theorem Instr.opcode_readFrom (w : Word) (i : Instr) : (i.readFrom w).opcode = i.opcode := by
  cases i <;> rfl

/-- A word with a command's opcode decodes to that command, its operands read from the word. -/
theorem decode_eq_readFrom {w : Word} {i : Instr} (h : opcodeOf w = i.opcode) :
    decode w = .command (i.readFrom w) := by
  unfold decode
  rw [h]
  cases i <;> rfl

/-- A word with no command's opcode is illegal (30_encoding.md R75). -/
theorem decode_eq_illegal {w : Word} (h : ∀ i : Instr, opcodeOf w ≠ i.opcode) : decode w = .illegal (opcodeOf w) :=
  (if_neg (h .nop)).trans <| (if_neg (h .clear)).trans <| (if_neg (h .compose)).trans <|
    (if_neg (h .convert)).trans <| (if_neg (h .frame)).trans <| (if_neg (h (.unpack 0 0 0))).trans <|
    (if_neg (h (.lut 0))).trans <| (if_neg (h (.resample 0 0))).trans <| if_neg (h (.expand 0))

/-- A word decodes to a command exactly when it carries the command's opcode and its operands. -/
theorem decode_eq_command_iff {w : Word} {i : Instr} :
    decode w = .command i ↔ opcodeOf w = i.opcode ∧ i.readFrom w = i := by
  constructor
  · intro hd
    by_cases h : ∃ j : Instr, opcodeOf w = j.opcode
    · obtain ⟨j, hj⟩ := h
      have hij : j.readFrom w = i := Verdict.command.inj ((decode_eq_readFrom hj).symm.trans hd)
      have hop : opcodeOf w = i.opcode := by rw [hj, ← hij, Instr.opcode_readFrom]
      exact ⟨hop, Verdict.command.inj ((decode_eq_readFrom hop).symm.trans hd)⟩
    · rw [decode_eq_illegal fun j hj => h ⟨j, hj⟩] at hd
      cases hd
  · rintro ⟨hop, hi⟩
    rw [decode_eq_readFrom hop, hi]

/-! ## Decoding what the encoder made -/

/-- The decoder's fields of an encoded command are its operands (30_encoding.md R72, R73). -/
theorem Instr.readFrom_encode (i : Instr) : i.readFrom (encode i) = i := by
  cases i with
  | nop | clear | compose | convert | frame => rfl
  | unpack idx row col =>
    simp [readFrom, encode, idxOf, rowOf, colOf, BitVec.extractLsb'_or, extract_place, extract_place_apart]
  | lut pix => simp [readFrom, encode, pixOf, BitVec.extractLsb'_or, extract_place, extract_place_apart]
  | resample xo yo => simp [readFrom, encode, xoOf, yoOf, BitVec.extractLsb'_or, extract_place, extract_place_apart]
  | expand sample => simp [readFrom, encode, sampleOf, BitVec.extractLsb'_or, extract_place, extract_place_apart]

/-- Decoding undoes encoding. -/
theorem decode_encode (i : Instr) : decode (encode i) = .command i :=
  decode_eq_command_iff.mpr ⟨Machine.opcodeOf_encode i, i.readFrom_encode⟩

/-! ## Reserved bits -/

/-- Reserved bits set in a word leave the opcode. -/
theorem opcodeOf_or_reserved (i : Instr) (w m : Word) : opcodeOf (w ||| (m &&& i.reservedMask)) = opcodeOf w := by
  cases i <;> simp (disch := decide) only [opcodeOf, Instr.reservedMask, extract_or_masked]

/-- Reserved bits set in a word leave the operands that its format reads (30_encoding.md R76). -/
theorem Instr.readFrom_or_reserved (i : Instr) (w m : Word) :
    i.readFrom (w ||| (m &&& i.reservedMask)) = i.readFrom w := by
  cases i with
  | nop | clear | compose | convert | frame => rfl
  | unpack idx row col => simp (disch := decide) only [readFrom, idxOf, rowOf, colOf, reservedMask, extract_or_masked]
  | lut pix => simp (disch := decide) only [readFrom, pixOf, reservedMask, extract_or_masked]
  | resample xo yo => simp (disch := decide) only [readFrom, xoOf, yoOf, reservedMask, extract_or_masked]
  | expand sample => simp (disch := decide) only [readFrom, sampleOf, reservedMask, extract_or_masked]

/-- Setting reserved bits of a command's format in a word that decodes to it changes nothing (30_encoding.md R76). -/
theorem decode_or_reserved {w : Word} {i : Instr} (h : decode w = .command i) (m : Word) :
    decode (w ||| (m &&& i.reservedMask)) = .command i := by
  obtain ⟨hop, hi⟩ := decode_eq_command_iff.mp h
  exact decode_eq_command_iff.mpr ⟨(opcodeOf_or_reserved i w m).trans hop, (i.readFrom_or_reserved w m).trans hi⟩

/-- The operands of a word, encoded again, give the word with its reserved bits cleared: opcode and operands take up
every bit that is not reserved (30_encoding.md R72). -/
theorem encode_readFrom {w : Word} {i : Instr} (h : opcodeOf w = i.opcode) :
    encode (i.readFrom w) = w &&& ~~~i.reservedMask := by
  cases i with
  | nop | clear | compose | convert | frame => exact (congrArg (place 24) h.symm).trans (place_extract w 24 8)
  | unpack idx row col =>
    show place 24 (Instr.opcode (.unpack idx row col)) ||| place 11 (colOf w) ||| place 8 (rowOf w) |||
      place 0 (idxOf w) = w &&& ~~~0x00FFC000#32
    rw [← h, opcodeOf, colOf, rowOf, idxOf]
    simp only [place_extract, ← BitVec.and_or_distrib_left]
    rfl
  | lut pix =>
    show place 24 (Instr.opcode (.lut pix)) ||| place 0 (pixOf w) = w &&& ~~~0x00FFFFFC#32
    rw [← h, opcodeOf, pixOf]
    simp only [place_extract, ← BitVec.and_or_distrib_left]
    rfl
  | resample xo yo =>
    show place 24 (Instr.opcode (.resample xo yo)) ||| place 12 (yoOf w) ||| place 0 (xoOf w) =
      w &&& ~~~0x00000000#32
    rw [← h, opcodeOf, xoOf, yoOf]
    simp only [place_extract, ← BitVec.and_or_distrib_left]
    rfl
  | expand sample =>
    show place 24 (Instr.opcode (.expand sample)) ||| place 0 (sampleOf w) = w &&& ~~~0x00FF0000#32
    rw [← h, opcodeOf, sampleOf]
    simp only [place_extract, ← BitVec.and_or_distrib_left]
    rfl

/-- A word that decodes to a command is its encoding with the word's own reserved bits. -/
theorem eq_encode_or_reserved {w : Word} {i : Instr} (h : decode w = .command i) :
    w = encode i ||| (w &&& i.reservedMask) := by
  obtain ⟨hop, hi⟩ := decode_eq_command_iff.mp h
  have henc := encode_readFrom hop
  rw [hi] at henc
  rw [henc, ← BitVec.and_or_distrib_left, BitVec.or_comm, BitVec.or_not_self, BitVec.and_allOnes]

/-! ## Which opcodes are legal -/

theorem opcodeOf_toNat (w : Word) : (opcodeOf w).toNat = w.toNat / 2 ^ 24 := by
  rw [opcodeOf, BitVec.extractLsb'_toNat, Nat.shiftRight_eq_div_pow, Nat.mod_eq_of_lt]
  omega

/-- The opcodes of the opcode table (30_encoding.md R74). -/
theorem Instr.exists_opcode_iff (op : BitVec 8) :
    (∃ i : Instr, op = i.opcode) ↔ ¬ (0x05 ≤ op.toNat ∧ op.toNat ≤ 0x0F ∨ 0x14 ≤ op.toNat) := by
  constructor
  · rintro ⟨i, rfl⟩
    cases i <;> simp [opcode]
  · intro h
    have hop : op = 0x00 ∨ op = 0x01 ∨ op = 0x02 ∨ op = 0x03 ∨ op = 0x04 ∨ op = 0x10 ∨ op = 0x11 ∨ op = 0x12 ∨
        op = 0x13 := by bv_omega
    obtain h | h | h | h | h | h | h | h | h := hop
    · exact ⟨.nop, h⟩
    · exact ⟨.clear, h⟩
    · exact ⟨.compose, h⟩
    · exact ⟨.convert, h⟩
    · exact ⟨.frame, h⟩
    · exact ⟨.unpack 0 0 0, h⟩
    · exact ⟨.lut 0, h⟩
    · exact ⟨.resample 0 0, h⟩
    · exact ⟨.expand 0, h⟩

/-! ## The assembler's sums -/

/-- A number that fits its field, placed under a multiple of the weight just above the field, adds to it. -/
theorem or_place_ofNat {n lo k v : Nat} (hk : k % 2 ^ (n + lo) = 0) (h : n + lo ≤ 32) (hv : v < 2 ^ n) :
    BitVec.ofNat 32 k ||| place lo (BitVec.ofNat n v) = BitVec.ofNat 32 (k + v <<< lo) := by
  apply BitVec.eq_of_toNat_eq
  have hmul : (BitVec.ofNat 32 k).toNat = 2 ^ (n + lo) * (k % 2 ^ 32 / 2 ^ (n + lo)) := by
    rw [BitVec.toNat_ofNat, Nat.mul_div_cancel']
    exact (Nat.dvd_mod_iff (Nat.pow_dvd_pow 2 h)).mpr (Nat.dvd_of_mod_eq_zero hk)
  have hsum := or_place_toNat (BitVec.ofNat n v) hmul h
  have hlt := hsum ▸ (BitVec.ofNat 32 k ||| place lo (BitVec.ofNat n v)).isLt
  rw [BitVec.toNat_ofNat, BitVec.toNat_ofNat, Nat.mod_eq_of_lt hv, ← Nat.shiftLeft_eq] at hsum hlt
  rw [hsum, BitVec.toNat_ofNat, ← Nat.mod_add_mod, Nat.mod_eq_of_lt hlt]

/-- A line whose operands fit assembles to the encoding of its command: each field lies below a multiple of the next
weight, so the sum is the union (30_encoding.md R79). -/
theorem CommandLine.assemble_of_wellFormed {l : CommandLine} (h : l.wellFormed = true) :
    l.assemble = some (encode l.toInstr) := by
  rw [assemble.eq_def, if_pos h, Option.some.injEq]
  cases l with
  | nop | clear | compose | convert | frame => rfl
  | unpack idx row col =>
    simp only [wellFormed, Bool.and_eq_true, decide_eq_true_eq] at h
    obtain ⟨⟨hidx, hrow⟩, hcol⟩ := h
    have hop : place 24 0x10#8 = BitVec.ofNat 32 0x10000000 := by decide
    simp only [toInstr, encode, Instr.opcode]
    rw [hop, or_place_ofNat (by decide) (by decide) hcol, or_place_ofNat (by omega) (by decide) hrow,
      or_place_ofNat (by omega) (by decide) hidx, Nat.shiftLeft_zero]
  | lut pix =>
    simp only [wellFormed, decide_eq_true_eq] at h
    have hop : place 24 0x11#8 = BitVec.ofNat 32 0x11000000 := by decide
    simp only [toInstr, encode, Instr.opcode]
    rw [hop, or_place_ofNat (by decide) (by decide) h, Nat.shiftLeft_zero]
  | resample xo yo =>
    simp only [wellFormed, Bool.and_eq_true, decide_eq_true_eq] at h
    obtain ⟨hxo, hyo⟩ := h
    have hop : place 24 0x12#8 = BitVec.ofNat 32 0x12000000 := by decide
    simp only [toInstr, encode, Instr.opcode]
    rw [hop, or_place_ofNat (by decide) (by decide) hyo, or_place_ofNat (by omega) (by decide) hxo,
      Nat.shiftLeft_zero]
  | expand sample =>
    simp only [wellFormed, decide_eq_true_eq] at h
    have hop : place 24 0x13#8 = BitVec.ofNat 32 0x13000000 := by decide
    simp only [toInstr, encode, Instr.opcode]
    rw [hop, or_place_ofNat (by decide) (by decide) h, Nat.shiftLeft_zero]

theorem CommandLine.assemble_of_illFormed {l : CommandLine} (h : l.wellFormed = false) : l.assemble = none := by
  simp [assemble, h]

end Sys2Proof

namespace Sys2Proof.Machine

/-! ## The statements on encoding -/

/-- Settles O2: the opcode and every operand are read back from where they were placed. -/
theorem encodedCommandsDecode : Obligations.EncodedCommandsDecode := decode_encode

/-- Settles O3: reserved bits touch no field that is read, and the fields are all the other bits. -/
theorem reservedBitsAreIgnored : Obligations.ReservedBitsAreIgnored := by
  intro w i
  constructor
  · intro h
    exact ⟨w, eq_encode_or_reserved h⟩
  · rintro ⟨m, rfl⟩
    exact decode_or_reserved (decode_encode i) m

/-- Settles O4: the decoder answers illegal exactly where no command has the word's opcode. -/
theorem reservedOpcodesAreIllegal : Obligations.ReservedOpcodesAreIllegal := by
  intro w op
  have hop : (opcodeOf w).toNat = op := opcodeOf_toNat w
  have hlegal := Instr.exists_opcode_iff (opcodeOf w)
  rw [hop] at hlegal
  constructor
  · intro h
    rw [← hop, BitVec.ofNat_toNat, BitVec.setWidth_eq]
    exact decode_eq_illegal fun i hi => hlegal.mp ⟨i, hi⟩ h
  · intro h
    obtain ⟨i, hi⟩ := hlegal.mpr h
    exact ⟨_, decode_eq_readFrom hi⟩

/-- Settles O5: the assembler's word is the encoder's, or none. -/
theorem assembledLinesDecode : Obligations.AssembledLinesDecode := by
  intro l
  constructor
  · intro h
    exact ⟨_, CommandLine.assemble_of_wellFormed h, rfl, decode_encode l.toInstr⟩
  · exact CommandLine.assemble_of_illFormed

/-- Settles O1, by running the decoder on the ten words. -/
theorem sampleWordsDecode : Obligations.SampleWordsDecode := by
  unfold Obligations.SampleWordsDecode
  decide

/-! ## Acceptance of a command word -/

/-- Settles O10: the register write at CMD offers the word, and an idle block accepts it. -/
theorem commandIsAccepted : Obligations.CommandIsAccepted := by
  intro s word i rest hc hs hd hi
  rw [step_wr32 hc hi]
  exact congrArg Host.Outcome.next (State.offerCommand_accepts hs hd)

/-- An opcode-table word stands for a command exactly when the decoder reads that command from it. -/
theorem decodeTableWord_eq_some_iff {nbits w : Nat} {i : Instr} :
    decodeTableWord nbits w = some i ↔ decode (tableWord nbits w) = .command i := by
  unfold decodeTableWord
  cases decode (tableWord nbits w) <;> simp

/-- A placed command word is accepted, with the block's turn to come first. -/
theorem State.issue_accepts (s : State) {word : Word} {i : Instr} (h : decode word = .command i) :
    s.issue word =
      { s with lCtrl := s.ctrl, lScroll := s.scroll, seq := .running word, inbox := .pass :: s.inbox } := by
  rw [State.issue, State.offerCommand_accepts rfl h]

/-- A `pass` leaves the step to the block. -/
theorem step_of_pass {s : State} {rest : List Turn} (hc : validConfig s.cfg = true) (hi : s.inbox = .pass :: rest) :
    step s = ({ s with inbox := rest } : State).blockTurn :=
  step_of_turn hc hi

/-- Settles O9: the placed word runs, and the turn that waits is the block's. -/
theorem placedWordRuns : Obligations.PlacedWordRuns := by
  intro s nbits w i hc hw
  have hd := decodeTableWord_eq_some_iff.mp hw
  rw [State.withFetchWord, s.issue_accepts hd, step_of_pass (by exact hc) rfl]
  exact State.blockTurn_of_running rfl hd

end Sys2Proof.Machine

/-!
PROOFS. The tile unpacker family: the bit of each plane that makes a pixel, where the rows of a tile lie, and UNPACK,
its words and its RESULT.
-/

namespace Sys2Proof.Machine

/-! ## The pixel of a pair of bytes -/

/-- The pixel as a number: one bit of each plane, the high plane's with weight 2 (40_tile_bitmap_unpacker.md R100).
Columns past 7 read bit 0, as column 7 does. -/
theorem unpack2_toNat (lo hi : Byte) (x : Nat) :
    (unpack2 lo hi x).toNat = 2 * (hi.toNat / 2 ^ (7 - x) % 2) + lo.toNat / 2 ^ (7 - x) % 2 := by
  have hbits : ∀ h l : Bool,
      ((BitVec.ofBool h).setWidth 2 <<< 1 ||| (BitVec.ofBool l).setWidth 2).toNat = 2 * h.toNat + l.toNat := by decide
  rw [unpack2, hbits, BitVec.getLsbD, BitVec.getLsbD, Nat.toNat_testBit, Nat.toNat_testBit]

/-- Settles O29: `unpack2` joins the two plane bits of the column. -/
theorem unpackTakesOneBitOfEachPlane : Obligations.UnpackTakesOneBitOfEachPlane :=
  fun lo hi x _ => unpack2_toNat lo hi x

/-! ## Where the rows of a tile lie -/

@[simp] theorem tileAddr_unsigned (c : Config) (idx : Byte) : tileAddr c idx true = c.ubase + 16 * idx.toNat := by
  simp only [tileAddr, tileNumber, if_true]
  omega

/-- A valid configuration leaves 2048 bytes below `SBASE`, so no signed tile address is cut off at 0
(00_scope.md R9, 40_tile_bitmap_unpacker.md R103). -/
theorem tileAddr_signed {c : Config} (hc : validConfig c = true) (idx : Byte) :
    (tileAddr c idx false : Int) = c.sbase + 16 * idx.toInt := by
  obtain ⟨-, -, -, -, -, -, -, -, -, hsbase, -⟩ := (validConfig_iff c).mp hc
  have hlow := idx.le_toInt
  simp only [tileAddr, tileNumber, Bool.false_eq_true, if_false]
  omega

/-- Unsigned mode: 256 tiles of 16 bytes from `UBASE` on. -/
theorem tileRow_unsigned_region (c : Config) (idx : Byte) {y : Nat} (hy : y ≤ 7) :
    c.ubase ≤ tileAddr c idx true + 2 * y ∧ tileAddr c idx true + 2 * y + 1 < c.ubase + 4096 := by
  have hidx := idx.isLt
  rw [tileAddr_unsigned]
  omega

/-- Signed mode: 128 tiles of 16 bytes on either side of `SBASE`. -/
theorem tileRow_signed_region {c : Config} (hc : validConfig c = true) (idx : Byte) {y : Nat} (hy : y ≤ 7) :
    c.sbase ≤ tileAddr c idx false + 2 * y + 2048 ∧ tileAddr c idx false + 2 * y + 1 < c.sbase + 2048 := by
  have haddr := tileAddr_signed hc idx
  have hlow := idx.le_toInt
  have hhigh := idx.toInt_lt
  omega

/-- Both tile regions of a valid configuration lie in VRAM (00_scope.md R9). -/
theorem tileRow_in_vram {c : Config} (hc : validConfig c = true) (idx : Byte) (tds : Bool) {y : Nat} (hy : y ≤ 7) :
    tileAddr c idx tds + 2 * y + 1 < c.vramSize := by
  obtain ⟨-, -, -, -, -, -, -, -, hubase, -, hsbase, -⟩ := (validConfig_iff c).mp hc
  cases tds with
  | true =>
    obtain ⟨-, hend⟩ := tileRow_unsigned_region c idx hy
    omega
  | false =>
    obtain ⟨-, hend⟩ := tileRow_signed_region hc idx hy
    omega

/-- Settles O30: the regions of the two modes, and the maps' 32 rows of 32 cells. -/
theorem tileReadsStayInTheirRegion : Obligations.TileReadsStayInTheirRegion := by
  intro c idx tds y hc hy
  obtain ⟨-, -, -, -, -, -, -, -, -, -, -, hmap0, hmap1, -⟩ := (validConfig_iff c).mp hc
  refine ⟨?_, ?_, tileRow_in_vram hc idx tds hy, fun tiley tilex htiley htilex => by omega⟩
  · rintro rfl
    exact tileRow_unsigned_region c idx hy
  · rintro rfl
    exact tileRow_signed_region hc idx hy

/-! ## UNPACK -/

theorem idxOf_toNat (w : Word) : (idxOf w).toNat = w.toNat % 2 ^ 8 := by
  rw [idxOf, BitVec.extractLsb'_toNat, Nat.shiftRight_zero]

theorem rowOf_toNat (w : Word) : (rowOf w).toNat = w.toNat / 2 ^ 8 % 2 ^ 3 := by
  rw [rowOf, BitVec.extractLsb'_toNat, Nat.shiftRight_eq_div_pow]

theorem colOf_toNat (w : Word) : (colOf w).toNat = w.toNat / 2 ^ 11 % 2 ^ 3 := by
  rw [colOf, BitVec.extractLsb'_toNat, Nat.shiftRight_eq_div_pow]

/-- The words of UNPACK: opcode 0x10, then `n` in the reserved bits 23:14, and the fields of format U
(30_encoding.md R72, R76). -/
theorem decode_unpackWord (idx : BitVec 8) (row col : BitVec 3) {n : Nat} (hn : n < 1024) :
    decode (BitVec.ofNat 32 (0x10000000 + 16384 * n + 2048 * col.toNat + 256 * row.toNat + idx.toNat)) =
      .command (.unpack idx row col) := by
  have hidx := idx.isLt
  have hrow := row.isLt
  have hcol := col.isLt
  generalize hw : BitVec.ofNat 32 (0x10000000 + 16384 * n + 2048 * col.toNat + 256 * row.toNat + idx.toNat) = w
  have hsum : w.toNat = 0x10000000 + 16384 * n + 2048 * col.toNat + 256 * row.toNat + idx.toNat := by
    rw [← hw, BitVec.toNat_ofNat]
    omega
  have hopOf : opcodeOf w = 0x10#8 := BitVec.eq_of_toNat_eq (by rw [opcodeOf_toNat, BitVec.toNat_ofNat]; omega)
  have hidxOf : idxOf w = idx := BitVec.eq_of_toNat_eq (by rw [idxOf_toNat]; omega)
  have hrowOf : rowOf w = row := BitVec.eq_of_toNat_eq (by rw [rowOf_toNat]; omega)
  have hcolOf : colOf w = col := BitVec.eq_of_toNat_eq (by rw [colOf_toNat]; omega)
  rw [decode_eq_command_iff, Instr.readFrom, hidxOf, hrowOf, hcolOf]
  exact ⟨hopOf, rfl⟩

/-- UNPACK writes RESULT and completes, having used a draw for each byte of the row. -/
theorem exec_unpack (idx : BitVec 8) (row col : BitVec 3) (s : State) :
    exec (.unpack idx row col) s = .next { s with
      result := place 16 (BitVec.ofNat 16 (tileAddr s.cfg idx s.tds + 2 * row.toNat)) |||
        place 0 (s.fetchPixel idx row.toNat col.toNat s.draws)
      seq := .idle
      draws := s.draws + 2 } := rfl

/-- The packing of UNPACK's RESULT: the address in the upper half, the pixel in the lowest bits. -/
theorem addressAndPixel_toNat {a : Nat} (ha : a < 2 ^ 16) (p : Pixel) :
    (place 16 (BitVec.ofNat 16 a) ||| place 0 p).toNat = a * 2 ^ 16 + p.toNat := by
  have haddr : (place 16 (BitVec.ofNat 16 a)).toNat = a * 2 ^ 16 := by
    rw [place_toNat (by decide), BitVec.toNat_ofNat, Nat.mod_eq_of_lt ha]
  have hmul : (place 16 (BitVec.ofNat 16 a)).toNat = 2 ^ (2 + 0) * (a * 2 ^ 14) := by
    rw [haddr]
    omega
  rw [or_place_toNat p hmul (by decide), haddr, Nat.pow_zero, Nat.mul_one]

/-- Where the two bytes of the row are written, the fetched pixel is made from them, whatever the draw. -/
theorem State.fetchPixel_of_get {s : State} {idx lo hi : Byte} {y : Nat}
    (hlo : s.vram.get (tileAddr s.cfg idx s.tds + 2 * y) = some lo)
    (hhi : s.vram.get (tileAddr s.cfg idx s.tds + 2 * y + 1) = some hi) (x k : Nat) :
    s.fetchPixel idx y x k = unpack2 lo hi x := by
  simp only [fetchPixel, Memory.read_of_get hlo, Memory.read_of_get hhi]

/-- The address of a tile's row, in the mode the latch selects (40_tile_bitmap_unpacker.md R101, R102, R105). -/
theorem State.tileRow_eq {s : State} (hc : validConfig s.cfg = true) (idx : Byte) (y : Nat) :
    ((tileAddr s.cfg idx s.tds + 2 * y : Nat) : Int) =
      (if s.lCtrl.getLsbD 0 = true then (s.cfg.ubase : Int) + 16 * idx.toNat
        else (s.cfg.sbase : Int) + 16 * idx.toInt) + 2 * y := by
  rw [State.tds]
  cases s.lCtrl.getLsbD 0 with
  | true => simp
  | false => simp [tileAddr_signed hc idx]

/-- Settles O31: the address lies in VRAM and so fits 16 bits, and the pixel is the fetched one. -/
theorem unpackReturnsAddressAndPixel : Obligations.UnpackReturnsAddressAndPixel := by
  intro s idx row col hc
  refine ⟨fun n hn => decode_unpackWord idx row col hn, ?_⟩
  have hin := tileRow_in_vram hc idx s.tds (Nat.le_of_lt_succ row.isLt)
  have hfits : tileAddr s.cfg idx s.tds + 2 * row.toNat < 2 ^ 16 := by
    have hsize := vramSize_le hc
    omega
  refine ⟨_, _, _, exec_unpack idx row col s, hin, rfl, State.tileRow_eq hc idx row.toNat, BitVec.isLt _,
    addressAndPixel_toNat hfits _, ?_⟩
  intro lo hi hlo hhi
  rw [State.fetchPixel_of_get hlo hhi, unpack2_toNat]

end Sys2Proof.Machine

/-!
PROOFS. The compositor family: CLEAR and COMPOSE cell by cell, what a loop of writes leaves and that CLEAR and COMPOSE
are their pseudocode loops, and CONVERT output word by output word.
-/

namespace Sys2Proof.Machine

/-! ## What CLEAR and COMPOSE leave -/

/-- Settles O32: a cell of the viewport is an address below `W * H`, and CLEAR writes those alone. -/
theorem clearFillsTheIfb : Obligations.ClearFillsTheIfb := by
  intro s
  refine ⟨s.clear.complete, rfl, rfl, fun x y hx hy => ?_, fun a ha => ?_⟩
  · rw [State.complete_ifb, State.clear_get, if_pos (rowMajor_lt hx hy), State.bgidx]
  · rw [State.complete_ifb, State.clear_get, if_neg (Nat.not_lt.mpr ha)]

/-- After COMPOSE the cell `(sx, sy)` shows the canvas at the scrolled coordinates (41_tile_compositor_with_scroll.md
R125). -/
theorem State.compose_get_cell (s : State) {sx sy : Nat} (hx : sx < s.cfg.w) (hy : sy < s.cfg.h) :
    s.compose.ifb.get (sy * s.cfg.w + sx) = some (s.canvasPixel ((sx + s.scx) % 256) ((sy + s.scy) % 256)) := by
  rw [State.compose_get, if_pos (rowMajor_lt hx hy), rowMajor_div hx, rowMajor_mod hx]

/-- Where the map byte and the two bytes of the tile's row are written, the canvas pixel is made from them, whatever the
draws. -/
theorem State.canvasPixel_of_get {s : State} {cx cy : Nat} {idx lo hi : Byte}
    (hidx : s.vram.get ((if s.msel then s.cfg.map1 else s.cfg.map0) + 32 * (cy / 8) + cx / 8) = some idx)
    (hlo : s.vram.get (tileAddr s.cfg idx s.tds + 2 * (cy % 8)) = some lo)
    (hhi : s.vram.get (tileAddr s.cfg idx s.tds + 2 * (cy % 8) + 1) = some hi) :
    s.canvasPixel cx cy = unpack2 lo hi (cx % 8) := by
  rw [State.canvasPixel, State.tilePixel, State.mapIndex, Memory.read_of_get hidx, State.fetchPixel_of_get hlo hhi]

/-- Settles O33: the cell holds a canvas pixel, which written bytes of VRAM fix. -/
theorem composeShowsTheScrolledCanvas : Obligations.ComposeShowsTheScrolledCanvas := by
  intro s
  refine ⟨s.compose.complete, rfl, rfl, fun sx sy hx hy => ?_, fun a ha => ?_⟩
  · have hcell := s.compose_get_cell hx hy
    refine ⟨Option.isSome_iff_exists.mpr ⟨_, hcell⟩, fun idx lo hi hidx hlo hhi => ?_⟩
    exact hcell.trans (congrArg some (State.canvasPixel_of_get hidx hlo hhi))
  · rw [State.complete_ifb, State.compose_get, if_neg (Nat.not_lt.mpr ha)]

/-- Settles O36: COMPOSE writes every cell that CLEAR does, with pixels that do not depend on the IFB. -/
theorem clearBeforeComposeIsUnseen : Obligations.ClearBeforeComposeIsUnseen := by
  intro s t u v hwf ht hu hv
  cases ht
  cases hu
  cases hv
  refine Memory.ext_get (State.compose_ifb_wf (State.clear_ifb_wf hwf)) (State.compose_ifb_wf hwf) fun a => ?_
  rw [State.complete_ifb, State.complete_ifb, State.compose_get, State.compose_get, State.complete_ifb,
    State.complete_cfg, State.clear_cfg, State.clear_get]
  by_cases ha : a < s.cfg.w * s.cfg.h
  · rw [if_pos ha, if_pos ha]
    -- CLEAR leaves VRAM, the latches and the draws, all that the canvas and the scroll are read from
    rfl
  · rw [if_neg ha, if_neg ha, if_neg ha]

/-! ## Loops of writes -/

/-- `m'` is `m` after writes to the cells of `S` and no other, each leaving what `f` gives for its cell. -/
structure Memory.Painted {w : Nat} (f : Nat → Option (BitVec w)) (S : Nat → Prop) (m m' : Memory w) : Prop where
  inside : ∀ a, S a → m'.get a = f a
  outside : ∀ a, ¬ S a → m'.get a = m.get a
  form : m.wf → m'.wf

section
variable {w : Nat} {f : Nat → Option (BitVec w)}

/-- One write paints its cell, where the value is the one `f` gives. -/
theorem Memory.painted_set {a : Nat} {v : BitVec w} (h : f a = some v) (m : Memory w) :
    Memory.Painted f (fun b => b = a) m (Memory.set m a v) where
  inside := by
    rintro b rfl
    rw [Memory.get_set_self, h]
  outside _ hb := Memory.get_set_other m v (Ne.symm hb)
  form hm := Memory.wf_set hm a v

/-- A loop paints what its rounds paint. They may go over each other's cells, since `f` fixes what stands there. -/
theorem Memory.painted_loop {S : Nat → Nat → Prop} {body : Memory w → Nat → Memory w} {n : Nat}
    (h : ∀ i, i < n → ∀ m, Memory.Painted f (S i) m (body m i)) (m : Memory w) :
    Memory.Painted f (fun a => ∃ i, i < n ∧ S i a) m ((List.range n).foldl body m) := by
  induction n with
  | zero => exact ⟨fun a ⟨i, hi, _⟩ => absurd hi (Nat.not_lt_zero i), fun _ _ => rfl, id⟩
  | succ n ih =>
    have hinit := ih fun i hi => h i (Nat.lt_succ_of_lt hi)
    have hlast := h n (Nat.lt_succ_self n) ((List.range n).foldl body m)
    rw [List.range_succ, List.foldl_append, List.foldl_cons, List.foldl_nil]
    refine ⟨fun a ⟨i, hi, ha⟩ => ?_, fun a ha => ?_, fun hm => hlast.form (hinit.form hm)⟩
    · by_cases hn : S n a
      · exact hlast.inside a hn
      · have hlt : i < n := Nat.lt_of_le_of_ne (Nat.le_of_lt_succ hi) fun he => hn (he ▸ ha)
        exact (hlast.outside a hn).trans (hinit.inside a ⟨i, hlt, ha⟩)
    · have hn : ¬ S n a := fun hs => ha ⟨n, Nat.lt_succ_self n, hs⟩
      exact (hlast.outside a hn).trans (hinit.outside a fun ⟨i, hi, hs⟩ => ha ⟨i, Nat.lt_succ_of_lt hi, hs⟩)

/-- In the canonical form, painting the cells of a range for which `f` gives a value is filling the range by `f`. -/
theorem Memory.Painted.eq_fill {S : Nat → Prop} {m m' : Memory w} (h : Memory.Painted f S m m') (hm : m.wf)
    {lo n : Nat} (hS : ∀ a, S a ↔ (lo ≤ a ∧ a < lo + n) ∧ (f a).isSome = true) : m' = m.fill lo n f := by
  refine Memory.ext_get (h.form hm) (Memory.wf_fill hm lo n f) fun a => ?_
  rw [Memory.get_fill]
  by_cases ha : S a
  · obtain ⟨hrange, hsome⟩ := (hS a).mp ha
    rw [h.inside a ha, if_pos hrange, Option.or_of_isSome hsome]
  · rw [h.outside a ha]
    split
    · next hrange =>
      have hnone : f a = none := by
        cases hf : f a with
        | none => rfl
        | some v => exact absurd ((hS a).mpr ⟨hrange, by simp [hf]⟩) ha
      rw [hnone, Option.none_or]
    · rfl

end

/-- The addresses below `W * H` are those of the cells, row by row (20_memory.md R54). -/
theorem rowMajor_iff {width height a : Nat} :
    (∃ y, y < height ∧ ∃ x, x < width ∧ a = y * width + x) ↔ a < width * height := by
  constructor
  · rintro ⟨y, hy, x, hx, rfl⟩
    exact rowMajor_lt hx hy
  · intro ha
    have hwidth : 0 < width := Nat.pos_of_mul_pos_right (Nat.zero_lt_of_lt ha)
    exact ⟨a / width, Nat.div_lt_of_lt_mul ha, a % width, Nat.mod_lt a hwidth, (Nat.div_add_mod' a width).symm⟩

/-- Settles O35: the rounds of the loop are the cells, and each writes BGIDX. -/
theorem clearIsItsLoop : Obligations.ClearIsItsLoop := by
  intro s t hwf ht
  cases ht
  have hpaint : Memory.Painted (fun _ => some s.bgidx)
      (fun a => ∃ sy, sy < s.cfg.h ∧ ∃ sx, sx < s.cfg.w ∧ a = sy * s.cfg.w + sx) s.ifb s.clearLoop :=
    Memory.painted_loop (fun sy _ => Memory.painted_loop fun sx _ => Memory.painted_set rfl) s.ifb
  refine (hpaint.eq_fill hwf fun a => ?_).symm
  rw [rowMajor_iff]
  simp

/-! ## The loop of COMPOSE -/

/-- The pixel of a map cell is a pixel of the canvas. -/
theorem State.tilePixel_eq_canvasPixel (s : State) (tiley tilex : Nat) {y x : Nat} (hy : y < 8) (hx : x < 8) :
    s.tilePixel tiley tilex y x = s.canvasPixel (8 * tilex + x) (8 * tiley + y) := by
  rw [State.canvasPixel, Nat.mul_add_div (by decide), Nat.mul_add_div (by decide), Nat.div_eq_of_lt hx,
    Nat.div_eq_of_lt hy, Nat.mul_add_mod, Nat.mul_add_mod, Nat.mod_eq_of_lt hx, Nat.mod_eq_of_lt hy, Nat.add_zero,
    Nat.add_zero]

theorem State.screenX_scrolled (s : State) {tilex x : Nat} (ht : tilex < 32) (hx : x < 8) :
    (s.screenX tilex x + s.scx) % 256 = 8 * tilex + x := by
  unfold State.screenX
  omega

theorem State.screenY_scrolled (s : State) {tiley y : Nat} (ht : tiley < 32) (hy : y < 8) :
    (s.screenY tiley y + s.scy) % 256 = 8 * tiley + y := by
  unfold State.screenY
  omega

/-- The one map column and pixel column that the scroll brings to a screen column (41_tile_compositor_with_scroll.md
R125). -/
theorem State.screenX_canvas (s : State) {sx : Nat} (h : sx < 256) :
    s.screenX ((sx + s.scx) % 256 / 8) ((sx + s.scx) % 256 % 8) = sx := by
  unfold State.screenX
  omega

theorem State.screenY_canvas (s : State) {sy : Nat} (h : sy < 256) :
    s.screenY ((sy + s.scy) % 256 / 8) ((sy + s.scy) % 256 % 8) = sy := by
  unfold State.screenY
  omega

/-- What COMPOSE leaves in the cell at an address, by the closed form. -/
def State.composedCell (s : State) (a : Nat) : Option Pixel :=
  some (s.canvasPixel ((a % s.cfg.w + s.scx) % 256) ((a / s.cfg.w + s.scy) % 256))

theorem State.composedIfb_eq (s : State) : s.composedIfb = s.ifb.fill 0 (s.cfg.w * s.cfg.h) s.composedCell := rfl

/-- The pixel `(y, x)` of map cell `(tiley, tilex)` is not clipped, and its IFB cell is at `a`. -/
def State.LandsAt (s : State) (tiley tilex y x a : Nat) : Prop :=
  (s.screenX tilex x < s.cfg.w ∧ s.screenY tiley y < s.cfg.h) ∧
    a = s.screenY tiley y * s.cfg.w + s.screenX tilex x

/-- The body of COMPOSE's loop writes where its pixel lands, and what the closed form gives there. -/
theorem State.composePixel_paints (s : State) {tiley tilex y x : Nat} (htiley : tiley < 32) (htilex : tilex < 32)
    (hy : y < 8) (hx : x < 8) (m : Memory 2) :
    Memory.Painted s.composedCell (s.LandsAt tiley tilex y x) m (s.composePixel tiley tilex y x m) := by
  unfold State.composePixel State.LandsAt
  split
  · next hin =>
    obtain ⟨hcol, hrow⟩ := hin
    simp only [hcol, hrow, and_self, true_and]
    refine Memory.painted_set ?_ m
    rw [State.composedCell, rowMajor_mod hcol, rowMajor_div hcol, s.screenX_scrolled htilex hx,
      s.screenY_scrolled htiley hy, s.tilePixel_eq_canvasPixel tiley tilex hy hx]
  · next hout => exact ⟨fun a ha => absurd ha.1 hout, fun _ _ => rfl, id⟩

/-- In a viewport of at most 256 by 256 the pixels of the map land on the cells, and on every one of them. -/
theorem State.exists_landsAt_iff (s : State) (hw : s.cfg.w ≤ 256) (hh : s.cfg.h ≤ 256) (a : Nat) :
    (∃ tiley, tiley < 32 ∧ ∃ tilex, tilex < 32 ∧ ∃ y, y < 8 ∧ ∃ x, x < 8 ∧ s.LandsAt tiley tilex y x a) ↔
      a < s.cfg.w * s.cfg.h := by
  constructor
  · rintro ⟨tiley, -, tilex, -, y, -, x, -, ⟨hx, hy⟩, rfl⟩
    exact rowMajor_lt hx hy
  · intro ha
    obtain ⟨sy, hy, sx, hx, rfl⟩ := rowMajor_iff.mpr ha
    refine ⟨(sy + s.scy) % 256 / 8, by omega, (sx + s.scx) % 256 / 8, by omega, (sy + s.scy) % 256 % 8, by omega,
      (sx + s.scx) % 256 % 8, by omega, ?_⟩
    unfold State.LandsAt
    rw [s.screenX_canvas (by omega), s.screenY_canvas (by omega)]
    exact ⟨⟨hx, hy⟩, rfl⟩

/-- Settles O34: each round of the loop agrees with the closed form, and together they reach every cell. -/
theorem composeIsItsLoop : Obligations.ComposeIsItsLoop := by
  intro s t hc hwf ht
  cases ht
  obtain ⟨-, hw, -, hh, -⟩ := (validConfig_iff s.cfg).mp hc
  have hpaint : Memory.Painted s.composedCell
      (fun a => ∃ tiley, tiley < 32 ∧ ∃ tilex, tilex < 32 ∧ ∃ y, y < 8 ∧ ∃ x, x < 8 ∧ s.LandsAt tiley tilex y x a)
      s.ifb s.composeLoop :=
    Memory.painted_loop (fun _ htiley => Memory.painted_loop fun _ htilex => Memory.painted_loop fun _ hy =>
      Memory.painted_loop fun _ hx => s.composePixel_paints htiley htilex hy hx) s.ifb
  rw [State.complete_ifb, State.compose_ifb, State.composedIfb_eq]
  refine (hpaint.eq_fill hwf fun a => ?_).symm
  rw [s.exists_landsAt_iff hw hh]
  simp [State.composedCell]

/-! ## CONVERT, word by word of OUT -/

/-- An output row is placed among the rows from `ROW_OFFSET` on (43_nearest_neighbor_resampler.md R152). -/
theorem placeRow_mem {c : Config} {yo : Nat} (h : yo < c.ho) :
    c.rowOffset ≤ placeRow c yo ∧ placeRow c yo < c.rowOffset + c.ho := by
  unfold placeRow
  split <;> omega

theorem unplaceRow_placeRow {c : Config} {yo : Nat} (h : yo < c.ho) : unplaceRow c (placeRow c yo) = yo := by
  unfold unplaceRow placeRow
  cases c.rowFlip with
  | true => simp only [if_true]; omega
  | false => simp only [Bool.false_eq_true, if_false]; omega

/-- CONVERT writes at each byte of an output word that byte of the output pixel. -/
theorem State.convertByte_outAddr (s : State) (hstride : s.cfg.wo ≤ s.cfg.outStride) {xo yo i : Nat}
    (hx : xo < s.cfg.wo) (hy : yo < s.cfg.ho) (hi : i < 4) :
    s.convertByte (outAddr s.cfg xo (placeRow s.cfg yo) + i) = some (byteAt (s.outPixel xo yo) i) := by
  have hcol : xo < s.cfg.outStride := Nat.lt_of_lt_of_le hx hstride
  have hword : (outAddr s.cfg xo (placeRow s.cfg yo) + i - s.cfg.outBase) / 4 =
      placeRow s.cfg yo * s.cfg.outStride + xo := by
    unfold outAddr
    omega
  have hbyte : (outAddr s.cfg xo (placeRow s.cfg yo) + i - s.cfg.outBase) % 4 = i := by
    unfold outAddr
    omega
  obtain ⟨hlow, hhigh⟩ := placeRow_mem hy
  simp only [State.convertByte, hword, hbyte, rowMajor_div hcol, rowMajor_mod hcol, unplaceRow_placeRow hy]
  exact if_pos ⟨hx, hlow, hhigh⟩

/-- After CONVERT the word of an output pixel stands at its place (43_nearest_neighbor_resampler.md R153). -/
theorem State.convert_holdsWord {s : State} (hc : validConfig s.cfg = true) {xo yo : Nat} (hx : xo < s.cfg.wo)
    (hy : yo < s.cfg.ho) : HoldsWord s.convert.out (outAddr s.cfg xo (placeRow s.cfg yo)) (s.outPixel xo yo) := by
  obtain ⟨-, -, -, -, -, -, -, -, -, -, -, -, -, -, hstride, hrows, -⟩ := (validConfig_iff s.cfg).mp hc
  obtain ⟨-, hrow⟩ := placeRow_mem hy
  obtain ⟨hbase, hend⟩ :=
    inOut_word (inOut_outAddr s.cfg (Nat.lt_of_lt_of_le hx hstride) (Nat.lt_of_lt_of_le hrow hrows))
  intro i hi
  rw [State.convert_get, if_pos ⟨by omega, by omega⟩, s.convertByte_outAddr hstride hx hy hi, Option.some_or,
    byteAt_eq]

/-- The output pixel in monochrome mode: the palette entry of the source cell (43_nearest_neighbor_resampler.md
R154). -/
theorem State.outPixel_mono {s : State} (h : s.cmode = false) (xo yo : Nat) :
    s.outPixel xo yo = lutEntry s.cfg (s.ifb.read (sourceY s.cfg yo * s.cfg.w + sourceX s.cfg xo)
      (s.draws + 2 * (yo * s.cfg.wo + xo))) := by
  simp [State.outPixel, State.srcColour, State.view, h]

/-- The output pixel in colour mode: the expanded source sample (43_nearest_neighbor_resampler.md R154). -/
theorem State.outPixel_colour {s : State} (h : s.cmode = true) (xo yo : Nat) :
    s.outPixel xo yo = expandPixel s.cfg (s.csbSample (sourceX s.cfg xo) (sourceY s.cfg yo)
      (s.draws + 2 * (yo * s.cfg.wo + xo))) := by
  simp [State.outPixel, State.srcColour, h]

/-- A sample of written bytes as a number, whatever the draw (20_memory.md R55). -/
theorem State.csbSample_toNat {s : State} {x y : Nat} {lo hi : Byte}
    (hlo : s.csb.get (2 * (y * s.cfg.w + x)) = some lo) (hhi : s.csb.get (2 * (y * s.cfg.w + x) + 1) = some hi)
    (k : Nat) : (s.csbSample x y k).toNat = hi.toNat * 256 + lo.toNat := by
  have happend : (hi.setWidth 16 <<< 8 ||| lo.setWidth 16 : Half) = hi ++ lo := by
    rw [BitVec.append_def, BitVec.shiftLeftZeroExtend_eq, BitVec.setWidth'_eq]
  rw [State.csbSample, Memory.read_of_get hlo, Memory.read_of_get hhi, happend, BitVec.toNat_append,
    ← Nat.shiftLeft_add_eq_or_of_lt lo.isLt, Nat.shiftLeft_eq]

/-- Settles O42: the word is the output pixel, and its colour is read from the source cell or the source sample. -/
theorem convertColoursEveryOutputPixel : Obligations.ConvertColoursEveryOutputPixel := by
  intro s hc
  refine ⟨s.convert.complete, rfl, rfl, fun xo yo hx hy => ?_⟩
  have hword := State.convert_holdsWord hc hx hy
  refine ⟨fun hmono => ?_, fun hcolour => ?_⟩
  · rw [State.outPixel_mono hmono] at hword
    exact ⟨_, hword, fun q hq => Memory.read_of_get hq _⟩
  · rw [State.outPixel_colour hcolour] at hword
    exact ⟨_, hword, fun lo hi hlo hhi => State.csbSample_toNat hlo hhi _⟩

end Sys2Proof.Machine

/-!
PROOFS. The colour palette family: which entry of the palette each index selects, and LUT, its words and its RESULT.
-/

namespace Sys2Proof.Machine

/-! ## The entries of the palette -/

@[simp] theorem lutEntry_zero (c : Config) : lutEntry c 0#2 = c.palette.entry0 := rfl
@[simp] theorem lutEntry_one (c : Config) : lutEntry c 1#2 = c.palette.entry1 := rfl
@[simp] theorem lutEntry_two (c : Config) : lutEntry c 2#2 = c.palette.entry2 := rfl
@[simp] theorem lutEntry_three (c : Config) : lutEntry c 3#2 = c.palette.entry3 := rfl

/-! ## LUT -/

theorem pixOf_toNat (w : Word) : (pixOf w).toNat = w.toNat % 2 ^ 2 := by
  rw [pixOf, BitVec.extractLsb'_toNat, Nat.shiftRight_zero]

/-- The words of LUT: opcode 0x11, then `n` in the reserved bits 23:2, and the field of format L
(30_encoding.md R72, R76). -/
theorem decode_lutWord (pix : BitVec 2) {n : Nat} (hn : n < 2 ^ 22) :
    decode (BitVec.ofNat 32 (0x11000000 + 4 * n + pix.toNat)) = .command (.lut pix) := by
  have hpix := pix.isLt
  generalize hw : BitVec.ofNat 32 (0x11000000 + 4 * n + pix.toNat) = w
  have hsum : w.toNat = 0x11000000 + 4 * n + pix.toNat := by
    rw [← hw, BitVec.toNat_ofNat]
    omega
  have hopOf : opcodeOf w = 0x11#8 := BitVec.eq_of_toNat_eq (by rw [opcodeOf_toNat, BitVec.toNat_ofNat]; omega)
  have hpixOf : pixOf w = pix := BitVec.eq_of_toNat_eq (by rw [pixOf_toNat]; omega)
  rw [decode_eq_command_iff, Instr.readFrom, hpixOf]
  exact ⟨hopOf, rfl⟩

/-- LUT writes RESULT and completes, and uses no draw. -/
theorem exec_lut (pix : BitVec 2) (s : State) :
    exec (.lut pix) s = .next { s with result := lutEntry s.cfg pix, seq := .idle } := rfl

/-- Settles O37: an index is one of four, each with its own entry, and the word's other bits below the opcode are
reserved. -/
theorem lutReturnsThePaletteEntry : Obligations.LutReturnsThePaletteEntry := by
  intro s pix
  have hindex (k : BitVec 2) (h : pix.toNat = k.toNat) : lutEntry s.cfg pix = lutEntry s.cfg k :=
    congrArg _ (BitVec.eq_of_toNat_eq h)
  refine ⟨⟨_, exec_lut pix s, ?_, ?_, ?_, ?_⟩, fun n hn => decode_lutWord pix hn⟩
  · exact fun h => (hindex 0#2 h).trans (lutEntry_zero s.cfg)
  · exact fun h => (hindex 1#2 h).trans (lutEntry_one s.cfg)
  · exact fun h => (hindex 2#2 h).trans (lutEntry_two s.cfg)
  · exact fun h => (hindex 3#2 h).trans (lutEntry_three s.cfg)

end Sys2Proof.Machine

/-!
PROOFS. The resampler family: RESAMPLE, its words and its RESULT; source coordinates; the placement of output rows; and
which bytes of OUT CONVERT writes, hence what it leaves unchanged and that it is its loop.
-/

namespace Sys2Proof.Machine

/-! ## RESAMPLE -/

/-- The words of RESAMPLE are the assembler's: opcode 0x12 and the two fields of format S (30_encoding.md R72, R79). -/
theorem decode_resampleWord (xo yo : BitVec 12) :
    decode (BitVec.ofNat 32 (0x12000000 + 4096 * yo.toNat + xo.toNat)) = .command (.resample xo yo) := by
  have hfits : (CommandLine.resample xo.toNat yo.toNat).wellFormed = true := by
    simp [CommandLine.wellFormed, xo.isLt, yo.isLt]
  have hencode : BitVec.ofNat 32 (0x12000000 + 4096 * yo.toNat + xo.toNat) = encode (.resample xo yo) := by
    simpa [CommandLine.assemble, hfits, CommandLine.toInstr, Nat.shiftLeft_eq, Nat.mul_comm] using
      CommandLine.assemble_of_wellFormed hfits
  rw [hencode, decode_encode]

/-- RESAMPLE writes RESULT and completes, and uses no draw. -/
theorem exec_resample (xo yo : BitVec 12) (s : State) :
    exec (.resample xo yo) s = .next { s with
      result := place 16 (BitVec.ofNat 16 (sourceY s.cfg yo.toNat)) |||
        place 0 (BitVec.ofNat 16 (sourceX s.cfg xo.toNat))
      seq := .idle } := rfl

/-- Two halves placed side by side make their sum, the upper one with weight 2^16. -/
theorem placedHalves_toNat (hi lo : Half) : (place 16 hi ||| place 0 lo).toNat = hi.toNat * 2 ^ 16 + lo.toNat := by
  have hupper : (place 16 hi).toNat = hi.toNat * 2 ^ 16 := place_toNat (by decide) hi
  rw [or_place_toNat lo (hupper.trans (Nat.mul_comm _ _)) (by decide), hupper, Nat.pow_zero, Nat.mul_one]

/-- Settles O39: RESULT is the two source coordinates, each cut to a half by its placing. -/
theorem resampleReturnsTheSource : Obligations.ResampleReturnsTheSource := by
  intro s xo yo
  refine ⟨⟨_, exec_resample xo yo s, ?_⟩, decode_resampleWord xo yo⟩
  rw [placedHalves_toNat, BitVec.toNat_ofNat, BitVec.toNat_ofNat, sourceX, sourceY]

/-! ## Source coordinates -/

theorem sourceX_lt {c : Config} {xo : Nat} (hw : 1 ≤ c.w) (h : xo < c.wo) : sourceX c xo < c.w :=
  Nat.div_lt_of_lt_mul (Nat.mul_lt_mul_of_pos_right h hw)

theorem sourceY_lt {c : Config} {yo : Nat} (hh : 1 ≤ c.h) (h : yo < c.ho) : sourceY c yo < c.h :=
  Nat.div_lt_of_lt_mul (Nat.mul_lt_mul_of_pos_right h hh)

theorem sourceX_mono (c : Config) {a b : Nat} (h : a ≤ b) : sourceX c a ≤ sourceX c b :=
  Nat.div_le_div_right (Nat.mul_le_mul_right _ h)

theorem sourceY_mono (c : Config) {a b : Nat} (h : a ≤ b) : sourceY c a ≤ sourceY c b :=
  Nat.div_le_div_right (Nat.mul_le_mul_right _ h)

/-- More output columns than source columns: two of them share one (43_nearest_neighbor_resampler.md R151). -/
theorem sourceX_reused {c : Config} (hw : 1 ≤ c.w) (h : c.w < c.wo) :
    ∃ a b, a < b ∧ b < c.wo ∧ sourceX c a = sourceX c b := by
  have hcard : (Finset.range c.w).card < (Finset.range c.wo).card := by simpa using h
  obtain ⟨a, ha, b, hb, hne, heq⟩ := Finset.exists_ne_map_eq_of_card_lt_of_maps_to (f := sourceX c) hcard
    (fun xo hxo => by simpa using sourceX_lt hw (Finset.mem_range.mp hxo))
  obtain hlt | hgt := Nat.lt_or_gt_of_ne hne
  · exact ⟨a, b, hlt, Finset.mem_range.mp hb, heq⟩
  · exact ⟨b, a, hgt, Finset.mem_range.mp ha, heq.symm⟩

/-- Fewer output columns than source columns: the columns read do not fill the source
(43_nearest_neighbor_resampler.md R151). -/
theorem sourceX_skips {c : Config} (h : c.wo < c.w) :
    ∃ xs, xs < c.w ∧ ∀ xo, xo < c.wo → sourceX c xo ≠ xs := by
  have hcard : ((Finset.range c.wo).image (sourceX c)).card < (Finset.range c.w).card :=
    calc _ ≤ (Finset.range c.wo).card := Finset.card_image_le
      _ < (Finset.range c.w).card := by simpa using h
  obtain ⟨xs, hxs, hunread⟩ := Finset.exists_mem_notMem_of_card_lt_card hcard
  exact ⟨xs, Finset.mem_range.mp hxs, fun xo hxo heq =>
    hunread (heq ▸ Finset.mem_image_of_mem _ (Finset.mem_range.mpr hxo))⟩

/-- Settles O40: scaling by a quotient is monotone and stays inside, and reuse and skipping are counting. -/
theorem sourceCoordinatesStayInside : Obligations.SourceCoordinatesStayInside := by
  intro c hc
  obtain ⟨hw, -, hh, -⟩ := (validConfig_iff c).mp hc
  exact ⟨fun _ => sourceX_lt hw, fun _ => sourceY_lt hh, fun _ _ hab => ⟨sourceX_mono c hab, sourceY_mono c hab⟩,
    by simp [sourceX], by simp [sourceY], sourceX_reused hw, sourceX_skips⟩

/-! ## The placement of output rows -/

/-- In a valid configuration the output lies inside OUT: its columns in the stride, its placed rows in the rows
(00_scope.md R9). -/
theorem outputFits_of_valid {c : Config} (hc : validConfig c = true) :
    c.wo ≤ c.outStride ∧ c.rowOffset + c.ho ≤ c.outRows := by
  obtain ⟨-, -, -, -, -, -, -, -, -, -, -, -, -, -, hstride, hrows, -⟩ := (validConfig_iff c).mp hc
  exact ⟨hstride, hrows⟩

/-- Every row from `ROW_OFFSET` on, `Ho` of them, is the place of the output row `unplaceRow` gives. -/
theorem placeRow_unplaceRow {c : Config} {row : Nat} (hlow : c.rowOffset ≤ row) (hhigh : row < c.rowOffset + c.ho) :
    unplaceRow c row < c.ho ∧ placeRow c (unplaceRow c row) = row := by
  unfold placeRow unplaceRow
  split <;> omega

/-- Settles O41: `unplaceRow` is the inverse of the placement on both sides. -/
theorem rowPlacementIsABijection : Obligations.RowPlacementIsABijection := by
  intro c hc
  have hrows := (outputFits_of_valid hc).2
  refine ⟨fun yo hyo => ?_, fun a b ha hb hab => ?_, fun row hlow hhigh => ⟨_, placeRow_unplaceRow hlow hhigh⟩⟩
  · obtain ⟨hlow, hhigh⟩ := placeRow_mem hyo
    exact ⟨rfl, hlow, hhigh, Nat.lt_of_lt_of_le hhigh hrows⟩
  · rw [← unplaceRow_placeRow ha, hab, unplaceRow_placeRow hb]

/-! ## The bytes CONVERT writes -/

/-- The external byte `a` belongs to the word of output pixel `(xo, yo)`. -/
def InOutputWord (c : Config) (xo yo a : Nat) : Prop :=
  outAddr c xo (placeRow c yo) ≤ a ∧ a < outAddr c xo (placeRow c yo) + 4

/-- Inside OUT, a byte that CONVERT writes belongs to the word of an output pixel. -/
theorem State.inOutputWord_of_convertByte {s : State} {a : Nat} (hlow : s.cfg.outBase ≤ a)
    (h : (s.convertByte a).isSome = true) :
    ∃ yo, yo < s.cfg.ho ∧ ∃ xo, xo < s.cfg.wo ∧ InOutputWord s.cfg xo yo a := by
  simp only [State.convertByte] at h
  split at h
  · next hin =>
    obtain ⟨hcol, hfirst, hlast⟩ := hin
    obtain ⟨hyo, hplace⟩ := placeRow_unplaceRow hfirst hlast
    refine ⟨_, hyo, _, hcol, ?_⟩
    rw [InOutputWord, hplace, outAddr, Nat.div_add_mod']
    omega
  · cases h

/-- CONVERT writes a byte of OUT exactly when it belongs to the word of an output pixel
(43_nearest_neighbor_resampler.md R153, R156). -/
theorem State.inOutputWord_iff {s : State} (hc : validConfig s.cfg = true) (a : Nat) :
    (∃ yo, yo < s.cfg.ho ∧ ∃ xo, xo < s.cfg.wo ∧ InOutputWord s.cfg xo yo a) ↔
      (s.cfg.outBase ≤ a ∧ a < s.cfg.outBase + outBytes s.cfg) ∧ (s.convertByte a).isSome = true := by
  obtain ⟨hstride, hrows⟩ := outputFits_of_valid hc
  constructor
  · rintro ⟨yo, hyo, xo, hxo, hlow, hhigh⟩
    obtain ⟨-, hrow⟩ := placeRow_mem hyo
    obtain ⟨hbase, hend⟩ :=
      inOut_word (inOut_outAddr s.cfg (Nat.lt_of_lt_of_le hxo hstride) (Nat.lt_of_lt_of_le hrow hrows))
    obtain ⟨i, rfl⟩ := Nat.exists_eq_add_of_le hlow
    refine ⟨by omega, ?_⟩
    rw [s.convertByte_outAddr hstride hxo hyo (by omega), Option.isSome_some]
  · rintro ⟨⟨hlow, -⟩, hsome⟩
    exact State.inOutputWord_of_convertByte hlow hsome

/-- CONVERT leaves a byte that belongs to no word of an output pixel. -/
theorem State.convert_get_other {s : State} (hc : validConfig s.cfg = true) {a : Nat}
    (h : ∀ xo yo, xo < s.cfg.wo → yo < s.cfg.ho → ¬ InOutputWord s.cfg xo yo a) :
    s.convert.out.get a = s.out.get a := by
  rw [State.convert_get]
  split
  · next hin =>
    have hnone : ¬ (s.convertByte a).isSome = true := fun hsome => by
      obtain ⟨yo, hyo, xo, hxo, hword⟩ := (State.inOutputWord_iff hc a).mpr ⟨hin, hsome⟩
      exact h xo yo hxo hyo hword
    rw [Option.not_isSome_iff_eq_none.mp hnone, Option.none_or]
  · rfl

/-- Settles O43: FRAME's CONVERT starts from the OUT that FRAME found, since COMPOSE leaves it. -/
theorem convertLeavesOtherOutBytes : Obligations.ConvertLeavesOtherOutBytes := by
  intro s t hc hexec a ha
  have hother : ∀ xo yo, xo < s.cfg.wo → yo < s.cfg.ho → ¬ InOutputWord s.cfg xo yo a := by
    rintro xo yo hxo hyo ⟨hlow, hhigh⟩
    have hout := ha xo yo hxo hyo
    omega
  obtain h | h := hexec
  · cases h
    exact State.convert_get_other hc hother
  · cases h
    exact State.convert_get_other (s := s.compose) hc hother

/-! ## The loop of CONVERT -/

/-- A word write paints its four bytes, where the bytes of the word are those `f` gives. -/
theorem Memory.painted_setWord {f : Nat → Option Byte} {a : Nat} {v : Word}
    (h : ∀ i, i < 4 → f (a + i) = some (byteAt v i)) (m : Memory 8) :
    Memory.Painted f (fun b => a ≤ b ∧ b < a + 4) m (m.setWord a v) where
  inside := by
    rintro b ⟨hlow, hhigh⟩
    obtain ⟨i, rfl⟩ := Nat.exists_eq_add_of_le hlow
    have hi : i < 4 := by omega
    rw [Memory.holdsWord_setWord m a v i hi, h i hi, byteAt_eq]
  outside b hb := Memory.get_setWord_other m v (by omega)
  form hm := Memory.wf_setWord hm a v

/-- Settles O44: each round of the loop writes the word that the one-pass form gives there, and together the rounds
reach every byte CONVERT writes. -/
theorem convertIsItsLoop : Obligations.ConvertIsItsLoop := by
  intro s t hc hwf ht
  cases ht
  have hstride := (outputFits_of_valid hc).1
  have hpaint : Memory.Painted s.convertByte
      (fun a => ∃ yo, yo < s.cfg.ho ∧ ∃ xo, xo < s.cfg.wo ∧ InOutputWord s.cfg xo yo a) s.out s.convertLoop :=
    Memory.painted_loop (fun _ hyo => Memory.painted_loop fun _ hxo => Memory.painted_setWord fun _ hi =>
      s.convertByte_outAddr hstride hxo hyo hi) s.out
  rw [State.complete_out, State.convert_out]
  exact (hpaint.eq_fill hwf (State.inOutputWord_iff hc)).symm

end Sys2Proof.Machine

/-!
PROOFS. The bit expansion family: a widened channel and the packed word as numbers; EXPAND, its words and its
RESULT.
-/

namespace Sys2Proof.Machine

/-! ## The expanded sample -/

/-- The widened channel of the five bits at `lo` of a sample is the field times 8 (44_bit_expand_rgb.md R171). -/
theorem widen_extract_toNat (sample : Half) (lo : Nat) :
    (widen (sample.extractLsb' lo 5)).toNat = sample.toNat / 2 ^ lo % 32 * 8 := by
  rw [widen, BitVec.toNat_shiftLeft, BitVec.toNat_setWidth, BitVec.extractLsb'_toNat, Nat.shiftRight_eq_div_pow,
    Nat.shiftLeft_eq]
  omega

/-- Four bytes placed side by side, as a number: they are the bytes of a 32-bit access. -/
theorem placedBytes_toNat (b3 b2 b1 b0 : Byte) :
    (place 24 b3 ||| place 16 b2 ||| place 8 b1 ||| place 0 b0).toNat =
      b3.toNat * 2 ^ 24 + b2.toNat * 2 ^ 16 + b1.toNat * 2 ^ 8 + b0.toNat := by
  have hjoin := joinBytes_w32 fun | 0 => b0 | 1 => b1 | 2 => b2 | _ => b3
  simp only [joinBytes] at hjoin
  omega

/-! ## EXPAND -/

theorem sampleOf_toNat (w : Word) : (sampleOf w).toNat = w.toNat % 2 ^ 16 := by
  rw [sampleOf, BitVec.extractLsb'_toNat, Nat.shiftRight_zero]

/-- The words of EXPAND: opcode 0x13 and the field of format E, whatever bits 23:16 hold (30_encoding.md R72, R76). -/
theorem decode_eq_expand_iff {w : Word} {sample : BitVec 16} :
    decode w = .command (.expand sample) ↔ w.toNat / 2 ^ 24 = 0x13 ∧ w.toNat % 2 ^ 16 = sample.toNat := by
  rw [decode_eq_command_iff, Instr.readFrom, Instr.expand.injEq, ← opcodeOf_toNat, ← sampleOf_toNat,
    BitVec.toNat_inj]
  exact and_congr_left' BitVec.toNat_inj.symm

/-- EXPAND writes RESULT and completes, and uses no draw. -/
theorem exec_expand (sample : BitVec 16) (s : State) :
    exec (.expand sample) s = .next { s with result := expandPixel s.cfg sample, seq := .idle } := rfl

/-- Settles O38: whichever order `pack` takes, the word is the sum of its four bytes, and each colour is a widened
field. -/
theorem expandPacksWidenedChannels : Obligations.ExpandPacksWidenedChannels := by
  intro s sample r g b
  have hr : (widen (sample.extractLsb' 0 5)).toNat = r := by rw [widen_extract_toNat, Nat.pow_zero, Nat.div_one]
  have hg : (widen (sample.extractLsb' 5 5)).toNat = g := widen_extract_toNat sample 5
  have hb : (widen (sample.extractLsb' 10 5)).toNat = b := widen_extract_toNat sample 10
  have ha : (0xFF#8).toNat = 255 := rfl
  refine ⟨⟨_, exec_expand sample s, ?_⟩, fun n hn => ?_⟩
  · rw [expandPixel]
    cases s.cfg.outPack with
    | rgba8888 | argb8888 | abgr8888 | bgra8888 => rw [pack, placedBytes_toNat, hr, hg, hb, ha]
  · have hsample := sample.isLt
    rw [decode_eq_expand_iff, BitVec.toNat_ofNat]
    omega

end Sys2Proof.Machine

/-!
PROOFS. The sequencing family: NOP and its words, runs of an issued command, FRAME as COMPOSE then CONVERT, what a FRAME
draws and what it depends on.
-/

namespace Sys2Proof.Machine

/-! ## Runs of an issued command -/

/-- A CMD write while a command runs raises OVR, whatever the word (60_exceptions.md R202, R203). -/
theorem State.offerCommand_of_running {s : State} {running : Word} (hs : s.seq = .running running) (word : Word) :
    s.offerCommand word = s.raiseErr .ovr := by
  simp [State.offerCommand, hs]

/-- From an idle block, the step that issues a command and the block's turn after it perform the command with CTRL and
SCROLL latched (30_encoding.md R70, 70_reset_and_hazards.md R228). -/
theorem run_issued {s t : State} {i : Instr} {rest : List Turn} (hc : validConfig s.cfg = true) (hs : s.seq = .idle)
    (hi : s.inbox = issueLine s.cfg i :: .pass :: rest)
    (ht : exec i { s with inbox := rest, lCtrl := s.ctrl, lScroll := s.scroll, seq := .running (encode i) } = .next t)
    (k : Nat) : Sys2Proof.core.run (k + 2) s = Sys2Proof.core.run k t := by
  have hissue := commandIsAccepted s (encode i) i (.pass :: rest) hc hs (decode_encode i) hi
  rw [run_succ hissue]
  refine run_succ ?_ k
  rw [step_of_pass (by exact hc) rfl]
  exact (State.blockTurn_of_running rfl (decode_encode i)).trans ht

/-! ## NOP -/

/-- The words of NOP: opcode 0x00, whatever bits 23:0 hold (30_encoding.md R72, R76). -/
theorem decode_eq_nop_iff {w : Word} : decode w = .command .nop ↔ w.toNat / 2 ^ 24 = 0 := by
  rw [decode_eq_command_iff, ← opcodeOf_toNat]
  exact (and_iff_left rfl).trans BitVec.toNat_inj.symm

/-- NOP completes and does nothing else. -/
theorem exec_nop (s : State) : exec .nop s = .next { s with seq := .idle } := rfl

/-- Settles O45: from idle the acceptance loads the latches and NOP adds nothing; to a running block the CMD write is
dropped. -/
theorem nopOnlyLatches : Obligations.NopOnlyLatches := by
  refine ⟨fun n hn => ?_, fun s => ⟨exec_nop s, fun rest hc hs hi => ?_, fun running rest hc hs hi => ?_⟩⟩
  · rw [decode_eq_nop_iff, BitVec.toNat_ofNat]
    omega
  · exact run_issued hc hs hi (by rw [exec_nop, ← hs]) 0
  · rw [step_wr32 hc hi]
    exact congrArg Host.Outcome.next (State.offerCommand_of_running (s := { s with inbox := rest }) hs (encode .nop))

/-! ## FRAME as COMPOSE then CONVERT -/

/-- Settles O46: CONVERT does not see that COMPOSE's completion has made SEQ idle. -/
theorem frameIsComposeThenConvert : Obligations.FrameIsComposeThenConvert :=
  fun s => ⟨s.compose.complete, s.compose.convert.complete, rfl, rfl, rfl, rfl, rfl⟩

/-- Settles O47: COMPOSE leaves CTRL and SCROLL, so the CONVERT issued after it runs with the latches of FRAME. -/
theorem frameEqualsTwoRuns : Obligations.FrameEqualsTwoRuns := by
  intro s rest hc hs once twice
  refine ⟨_, run_issued (s := { s with inbox := once }) (i := .frame) hc hs rfl rfl 0, ?_⟩
  rw [run_issued (s := { s with inbox := twice }) (i := .compose) hc hs rfl rfl 2]
  exact run_issued (i := .convert) (by exact hc) rfl rfl rfl 0

/-! ## What FRAME draws -/

/-- The output pixel of a monochrome FRAME: the palette entry of the canvas pixel at the scrolled source position
(41_tile_compositor_with_scroll.md R125, 43_nearest_neighbor_resampler.md R150, R154). -/
theorem State.compose_outPixel_mono {s : State} (hc : validConfig s.cfg = true) (hmono : s.cmode = false) {xo yo : Nat}
    (hx : xo < s.cfg.wo) (hy : yo < s.cfg.ho) :
    s.compose.outPixel xo yo = lutEntry s.cfg
      (s.canvasPixel ((sourceX s.cfg xo + s.scx) % 256) ((sourceY s.cfg yo + s.scy) % 256)) := by
  obtain ⟨hw, -, hh, -⟩ := (validConfig_iff s.cfg).mp hc
  have hcell := s.compose_get_cell (sourceX_lt hw hx) (sourceY_lt hh hy)
  rw [State.outPixel_mono (s := s.compose) hmono, State.compose_cfg, Memory.read_of_get hcell]

/-- Settles O48: the word is the output pixel of the composed state, and the written bytes fix its canvas pixel. -/
theorem frameDrawsTheBackground : Obligations.FrameDrawsTheBackground := by
  intro s hc hmono
  refine ⟨s.compose.convert.complete, rfl, rfl, ?_⟩
  intro xo yo hx hy cx cy mapBase idx lo hi hidx hlo hhi
  have hword : HoldsWord s.compose.convert.out (outAddr s.cfg xo (placeRow s.cfg yo)) (s.compose.outPixel xo yo) :=
    State.convert_holdsWord (s := s.compose) hc hx hy
  have hpixel : s.canvasPixel cx cy = unpack2 lo hi (cx % 8) := State.canvasPixel_of_get hidx hlo hhi
  rw [State.compose_outPixel_mono hc hmono hx hy] at hword
  rw [← hpixel]
  exact hword

/-! ## What FRAME depends on -/

/-- Two states agree on all that FRAME reads: the configuration, the latches, VRAM and the CSB (45_sequencing.md R181,
20_memory.md R51). -/
structure SameFrameInputs (s s' : State) : Prop where
  cfg : s'.cfg = s.cfg
  lCtrl : s'.lCtrl = s.lCtrl
  lScroll : s'.lScroll = s.lScroll
  vram : s'.vram = s.vram
  csb : s'.csb = s.csb

/-- With VRAM written, every canvas pixel has a map byte and two tile bytes: no draw is left. -/
theorem State.canvasBytes_written {s : State} (hc : validConfig s.cfg = true)
    (hvram : ∀ a, a < s.cfg.vramSize → Written s.vram a) {cx cy : Nat} (hx : cx < 256) (hy : cy < 256) :
    ∃ idx lo hi,
      s.vram.get ((if s.msel then s.cfg.map1 else s.cfg.map0) + 32 * (cy / 8) + cx / 8) = some idx ∧
      s.vram.get (tileAddr s.cfg idx s.tds + 2 * (cy % 8)) = some lo ∧
      s.vram.get (tileAddr s.cfg idx s.tds + 2 * (cy % 8) + 1) = some hi := by
  have hmap : (if s.msel then s.cfg.map1 else s.cfg.map0) + 32 * (cy / 8) + cx / 8 < s.cfg.vramSize := by
    obtain ⟨-, -, -, hmaps⟩ := tileReadsStayInTheirRegion s.cfg 0 s.tds 0 hc (Nat.zero_le 7)
    obtain ⟨hmap0, hmap1⟩ := hmaps (cy / 8) (cx / 8) (by omega) (by omega)
    split
    · exact hmap1
    · exact hmap0
  obtain ⟨idx, hidx⟩ := Option.isSome_iff_exists.mp (hvram _ hmap)
  have hrow := tileRow_in_vram hc idx s.tds (y := cy % 8) (by omega)
  obtain ⟨lo, hlo⟩ := Option.isSome_iff_exists.mp (hvram _ (Nat.lt_of_succ_lt hrow))
  obtain ⟨hi, hhi⟩ := Option.isSome_iff_exists.mp (hvram _ hrow)
  exact ⟨idx, lo, hi, hidx, hlo, hhi⟩

section
variable {s s' : State} (hsame : SameFrameInputs s s')
include hsame

theorem SameFrameInputs.cmode : s'.cmode = s.cmode := by
  rw [State.cmode, State.cmode, hsame.lCtrl]

theorem SameFrameInputs.scx : s'.scx = s.scx := by
  rw [State.scx, State.scx, hsame.lScroll]

theorem SameFrameInputs.scy : s'.scy = s.scy := by
  rw [State.scy, State.scy, hsame.lScroll]

/-- COMPOSE leaves the inputs as they are. -/
theorem SameFrameInputs.compose : SameFrameInputs s.compose s'.compose := { hsame with }

/-- A written sample is the same in states with the same inputs, whatever the draws. -/
theorem SameFrameInputs.csbSample {x y : Nat} (hx : x < s.cfg.w) (hy : y < s.cfg.h)
    (hcsb : ∀ a, a < 2 * (s.cfg.w * s.cfg.h) → Written s.csb a) (j k : Nat) :
    s'.csbSample x y j = s.csbSample x y k := by
  have hin := rowMajor_lt hx hy
  rw [State.csbSample, State.csbSample, hsame.cfg, hsame.csb,
    Memory.read_written (hcsb (2 * (y * s.cfg.w + x)) (by omega)) j k,
    Memory.read_written (hcsb (2 * (y * s.cfg.w + x) + 1) (by omega)) (j + 1) (k + 1)]

variable (hc : validConfig s.cfg = true) (hvram : ∀ a, a < s.cfg.vramSize → Written s.vram a)
include hc hvram

/-- With VRAM written, states with the same inputs show the same canvas pixel at every scrolled position. -/
theorem SameFrameInputs.scrolledPixel (x y : Nat) :
    s'.canvasPixel ((x + s'.scx) % 256) ((y + s'.scy) % 256) =
      s.canvasPixel ((x + s.scx) % 256) ((y + s.scy) % 256) := by
  obtain ⟨idx, lo, hi, hidx, hlo, hhi⟩ := State.canvasBytes_written hc hvram
    (Nat.mod_lt (x + s.scx) (by decide)) (Nat.mod_lt (y + s.scy) (by decide))
  rw [hsame.scx, hsame.scy, State.canvasPixel_of_get hidx hlo hhi]
  apply State.canvasPixel_of_get (idx := idx)
  · rwa [State.msel, hsame.lCtrl, hsame.cfg, hsame.vram]
  · rwa [State.tds, hsame.lCtrl, hsame.cfg, hsame.vram]
  · rwa [State.tds, hsame.lCtrl, hsame.cfg, hsame.vram]

/-- With VRAM written, COMPOSE gives states with the same inputs the same IFB cells. -/
theorem SameFrameInputs.compose_get_cell {sx sy : Nat} (hx : sx < s.cfg.w) (hy : sy < s.cfg.h) :
    s'.compose.ifb.get (sy * s.cfg.w + sx) = s.compose.ifb.get (sy * s.cfg.w + sx) := by
  have hcell' := s'.compose_get_cell (sx := sx) (sy := sy) (by rwa [hsame.cfg]) (by rwa [hsame.cfg])
  rw [hsame.cfg, hsame.scrolledPixel hc hvram] at hcell'
  rw [hcell', s.compose_get_cell hx hy]

/-- With the memories FRAME reads written, FRAME gives states with the same inputs the same output pixels. -/
theorem SameFrameInputs.compose_outPixel
    (hcsb : s.cmode = true → ∀ a, a < 2 * (s.cfg.w * s.cfg.h) → Written s.csb a) {xo yo : Nat}
    (hx : xo < s.cfg.wo) (hy : yo < s.cfg.ho) : s'.compose.outPixel xo yo = s.compose.outPixel xo yo := by
  cases hmode : s.cmode with
  | false =>
    have hpixel' := State.compose_outPixel_mono (s := s') (xo := xo) (yo := yo) (by rwa [hsame.cfg])
      (hsame.cmode.trans hmode) (by rwa [hsame.cfg]) (by rwa [hsame.cfg])
    rw [hpixel', hsame.scrolledPixel hc hvram, hsame.cfg, State.compose_outPixel_mono hc hmode hx hy]
  | true =>
    obtain ⟨hw, -, hh, -⟩ := (validConfig_iff s.cfg).mp hc
    rw [State.outPixel_colour (s := s'.compose) (hsame.cmode.trans hmode), State.outPixel_colour (s := s.compose) hmode,
      hsame.compose.cfg, hsame.compose.csbSample (sourceX_lt hw hx) (sourceY_lt hh hy) (hcsb hmode)]

end

/-- Settles O49: COMPOSE gives both states the same cells, and CONVERT places the same words in both OUTs. -/
theorem frameDependsOnlyOnItsInputs : Obligations.FrameDependsOnlyOnItsInputs := by
  intro s s' t t' hc hcfg hctrl hscroll hv hcsb hvramWritten hcsbWritten ht ht'
  have hsame : SameFrameInputs s s' := ⟨hcfg, hctrl, hscroll, hv, hcsb⟩
  cases ht
  cases ht'
  refine ⟨fun x y hx hy => hsame.compose_get_cell hc hvramWritten hx hy, fun xo yo i hx hy hi => ?_⟩
  have hword := State.convert_holdsWord (s := s.compose) hc hx hy i hi
  have hword' := State.convert_holdsWord (s := s'.compose) (xo := xo) (yo := yo) (by rwa [hsame.compose.cfg])
    (by rwa [hsame.compose.cfg]) (by rwa [hsame.compose.cfg]) i hi
  rw [hsame.compose.cfg, hsame.compose_outPixel hc hvramWritten hcsbWritten hx hy] at hword'
  exact hword'.trans hword.symm

end Sys2Proof.Machine

/-!
PROOFS. The exceptions family: a CMD write that raises ILL or OVR, and the idle block.
-/

namespace Sys2Proof.Machine

/-! ## A CMD write that is not accepted -/

/-- A CMD write of a word with a reserved opcode to an idle block raises ILL (60_exceptions.md R201). -/
theorem State.offerCommand_of_illegal {s : State} {word : Word} {op : BitVec 8} (hs : s.seq = .idle)
    (hd : decode word = .illegal op) : s.offerCommand word = s.raiseErr .ill := by
  simp [State.offerCommand, hs, hd]

/-- Settles O11: the decoder answers illegal on the reserved opcodes, and an idle block raises ILL on that answer. -/
theorem reservedOpcodeRaisesIll : Obligations.ReservedOpcodeRaisesIll := by
  intro s word rest hc hs hop hi
  obtain ⟨hillegal, -⟩ := reservedOpcodesAreIllegal word
  rw [step_wr32 hc hi]
  exact congrArg Host.Outcome.next (State.offerCommand_of_illegal (s := { s with inbox := rest }) hs (hillegal hop))

/-- Settles O12: a running block drops the word without decoding it. -/
theorem busyWriteRaisesOvr : Obligations.BusyWriteRaisesOvr := by
  intro s running word rest hc hs hi
  rw [step_wr32 hc hi]
  exact congrArg Host.Outcome.next (State.offerCommand_of_running (s := { s with inbox := rest }) hs word)

/-! ## The idle block -/

/-- Settles O8: the step is the block's turn, in which an idle block does nothing. -/
theorem idleBlockKeepsEverything : Obligations.IdleBlockKeepsEverything := by
  intro s hc hs
  refine ⟨fun hi => ?_, fun rest hi => ?_⟩
  · rw [step_of_empty hc hi, State.blockTurn_of_idle hs]
  · rw [step_of_pass hc hi, State.blockTurn_of_idle (s := { s with inbox := rest }) hs]

end Sys2Proof.Machine

/-!
PROOFS. The reset and hazards family: the running command at the block's turn.
-/

namespace Sys2Proof.Machine

/-- Settles O7: with no outside turn waiting, or with a pass turn, the step is the block's turn, in which a running
block performs its decoded command. -/
theorem stepPerformsTheRunningCommand : Obligations.StepPerformsTheRunningCommand := by
  intro s word i hc hs hd
  refine ⟨fun hi => ?_, fun rest hi => ?_⟩
  · rw [step_of_empty hc hi, State.blockTurn_of_running hs hd]
  · rw [step_of_pass hc hi, State.blockTurn_of_running (s := { s with inbox := rest }) hs hd]

end Sys2Proof.Machine
